-- ==== Sys2Proof/Word.lean ====
section
/-! DEFINITION. The fixed widths of the UBF unit (00_scope.md R7; 30_encoding.md R70, R84). -/

namespace Sys2Proof

/-- A byte of the bit store or of a command moved as bytes (R7). -/
abbrev Byte := BitVec 8

/-- The command word `CW[143:0]`, bit 143 the most significant (R70). -/
abbrev CommandWord := BitVec 144

/-- The 128-bit identifier, byte 0 its most significant byte (R49, R72). -/
abbrev Identifier := BitVec 128

/-- One data beat of a response, and the width in which a CSR is read (R28, R84). -/
abbrev Beat := BitVec 128

end Sys2Proof
end

