-- ==== Sys2Proof/Syntax.lean ====
section
/-! DEFINITION. The eight commands, one constructor per row of spec/opcode_table.json (30_encoding.md R80). -/

namespace Sys2Proof

/-- A decoded command with its operands taken from the command word as they stand (R79). Counts, numbers and
indices are naturals and `VAR` is an integer (R10, R74); the identifier is bits (R72). -/
inductive Instr where
  /-- INIT: construct a filter of variant `VAR` (40_configuration.md R112). -/
  | init (var : Int)
  /-- DESC: describe the variant `VAR` (40_configuration.md R115). -/
  | desc (var : Int)
  /-- ADD: insert an identifier (42_bit_access.md R165). -/
  | add (idLen : Nat) (id : Identifier)
  /-- HAS: test an identifier (42_bit_access.md R169). -/
  | has (idLen : Nat) (id : Identifier)
  /-- DERIVE: return the indices of an identifier (41_index_derivation.md R148). -/
  | derive (idLen : Nat) (id : Identifier)
  /-- RDCSR: read a control and status register (43_diagnostic.md R191). -/
  | rdcsr (csrn : Nat)
  /-- RDLEN: read the length of a segment (43_diagnostic.md R192). -/
  | rdlen (segi : Nat)
  /-- RDBYTE: read one byte of one segment (43_diagnostic.md R193). -/
  | rdbyte (segi : Nat) (off : Nat)
  deriving DecidableEq, Repr

end Sys2Proof
end

