-- ==== Sys2Proof/WellFormed.lean ====
section
/-! DEFINITION. When a command's operands fit the fields of its format (30_encoding.md R73 to R78). -/

namespace Sys2Proof

/-- `VAR` is a 32-bit two's complement integer, `-2^31 .. 2^31 - 1` (R74). -/
def varFits (var : Int) : Bool := decide (-2 ^ 31 ≤ var) && decide (var < 2 ^ 31)

/-- `IDLEN` is an 8-bit count (R75). -/
def idLenFits (n : Nat) : Bool := decide (n < 2 ^ 8)

/-- `CSRN` is an 8-bit number (R76). -/
def csrnFits (n : Nat) : Bool := decide (n < 2 ^ 8)

/-- `SEGI` is a 64-bit index (R77, R78). -/
def segiFits (n : Nat) : Bool := decide (n < 2 ^ 64)

/-- `OFF` is a 64-bit byte offset (R78). -/
def offFits (n : Nat) : Bool := decide (n < 2 ^ 64)

/-- Every operand fits its field. -/
def Instr.wf : Instr → Bool
  | .init var => varFits var
  | .desc var => varFits var
  | .add idLen _ => idLenFits idLen
  | .has idLen _ => idLenFits idLen
  | .derive idLen _ => idLenFits idLen
  | .rdcsr csrn => csrnFits csrn
  | .rdlen segi => segiFits segi
  | .rdbyte segi off => segiFits segi && offFits off

end Sys2Proof
end

