-- ==== Sys2Proof/Decode.lean ====
section
/-! DEFINITION. The decoder of 30_encoding.md R81, total on every 144-bit word and on any bytes; then the encoder of
formats V, I, C, S, B (R73 to R78), and the opcode map of R80. -/

namespace Sys2Proof

/-- Why a word is *illegal* (R81 to R83). -/
inductive Illegal where
  /-- `OP` is 0x00 or 0x09 to 0xFF (R82). -/
  | reservedOpcode (op : Byte)
  /-- `AUX` must be zero in formats V, C, S, B (R83). -/
  | auxNotZero
  /-- A must-be-zero part of `ARG` is not zero (R83). -/
  | reservedNotZero
  /-- Not 18 bytes: no command word at all (R71; R52: the model has whole words only). -/
  | wrongLength (n : Nat)
  deriving DecidableEq, Repr

/-- What decoding answers: one command with its fields, or *illegal* (R81). -/
inductive Decoded where
  | legal (i : Instr)
  | illegal (why : Illegal)
  deriving DecidableEq, Repr

/-- The field `CW[lo + len - 1 : lo]` of a command word (00_scope.md R13). -/
def cwField (cw : CommandWord) (lo len : Nat) : BitVec len := cw.extractLsb' lo len

/-- `OP = CW[143:136]` (R70). -/
def opOf (cw : CommandWord) : Byte := cwField cw 136 8

/-- `AUX = CW[135:128]` (R70). -/
def auxOf (cw : CommandWord) : Byte := cwField cw 128 8

/-- `ARG = CW[127:0]` (R70). -/
def argOf (cw : CommandWord) : BitVec 128 := cwField cw 0 128

/-- Format V (R73, R74): `AUX` and `ARG[127:32]` are zero and `VAR` is `ARG[31:0]` as a signed integer. -/
def decodeV (mk : Int → Instr) (cw : CommandWord) : Decoded :=
  if auxOf cw ≠ 0#8 then .illegal .auxNotZero
  else if cwField cw 32 96 ≠ 0#96 then .illegal .reservedNotZero
  else .legal (mk (cwField cw 0 32).toInt)

/-- Format I (R75): `IDLEN` is `AUX` and `ID` is `ARG`; no field is reserved. -/
def decodeI (mk : Nat → Identifier → Instr) (cw : CommandWord) : Decoded :=
  .legal (mk (auxOf cw).toNat (argOf cw))

/-- Format C (R76): `AUX` and `ARG[127:8]` are zero. -/
def decodeC (mk : Nat → Instr) (cw : CommandWord) : Decoded :=
  if auxOf cw ≠ 0#8 then .illegal .auxNotZero
  else if cwField cw 8 120 ≠ 0#120 then .illegal .reservedNotZero
  else .legal (mk (cwField cw 0 8).toNat)

/-- Format S (R77): `AUX` and `ARG[63:0]` are zero. -/
def decodeS (mk : Nat → Instr) (cw : CommandWord) : Decoded :=
  if auxOf cw ≠ 0#8 then .illegal .auxNotZero
  else if cwField cw 0 64 ≠ 0#64 then .illegal .reservedNotZero
  else .legal (mk (cwField cw 64 64).toNat)

/-- Format B (R78): `AUX` is zero. -/
def decodeB (mk : Nat → Nat → Instr) (cw : CommandWord) : Decoded :=
  if auxOf cw ≠ 0#8 then .illegal .auxNotZero
  else .legal (mk (cwField cw 64 64).toNat (cwField cw 0 64).toNat)

/-- `decode` of R81. Reserved opcodes are illegal, and none is a no-operation (R82). -/
def decode (cw : CommandWord) : Decoded :=
  if opOf cw = 0x01#8 then decodeV .init cw
  else if opOf cw = 0x02#8 then decodeV .desc cw
  else if opOf cw = 0x03#8 then decodeI .add cw
  else if opOf cw = 0x04#8 then decodeI .has cw
  else if opOf cw = 0x05#8 then decodeI .derive cw
  else if opOf cw = 0x06#8 then decodeC .rdcsr cw
  else if opOf cw = 0x07#8 then decodeS .rdlen cw
  else if opOf cw = 0x08#8 then decodeB .rdbyte cw
  else .illegal (.reservedOpcode (opOf cw))

/-! ### A command word as bytes (R71) -/

/-- The 18 bytes of a command word, most significant first (R71). -/
def bytesOfWord (cw : CommandWord) : List Byte :=
  (List.range 18).map fun j => cwField cw (8 * (17 - j)) 8

/-- The number that bytes spell, most significant first. -/
def natOfBytes (bs : List Byte) : Nat := bs.foldl (fun n b => n * 256 + b.toNat) 0

/-- The word that 18 bytes spell, most significant first (R71). -/
def wordOfBytes (bs : List Byte) : Option CommandWord :=
  if bs.length = 18 then some (BitVec.ofNat 144 (natOfBytes bs)) else none

/-- Decoding of any bytes; what is not 18 bytes is no command word. -/
def decodeBytes (bs : List Byte) : Decoded :=
  match wordOfBytes bs with
  | some cw => decode cw
  | none => .illegal (.wrongLength bs.length)

/-! ### The encoder -/

/-- `{OP, AUX, ARG}` (R70). -/
def packWord (op aux : Byte) (arg : BitVec 128) : CommandWord := op ++ aux ++ arg

/-- The command word of a command, from the format tables R73 to R78 and the opcodes of R80. -/
def encode : Instr → CommandWord
  | .init var => packWord 0x01#8 0#8 (0#96 ++ BitVec.ofInt 32 var)
  | .desc var => packWord 0x02#8 0#8 (0#96 ++ BitVec.ofInt 32 var)
  | .add idLen id => packWord 0x03#8 (BitVec.ofNat 8 idLen) id
  | .has idLen id => packWord 0x04#8 (BitVec.ofNat 8 idLen) id
  | .derive idLen id => packWord 0x05#8 (BitVec.ofNat 8 idLen) id
  | .rdcsr csrn => packWord 0x06#8 0#8 (0#120 ++ BitVec.ofNat 8 csrn)
  | .rdlen segi => packWord 0x07#8 0#8 (BitVec.ofNat 64 segi ++ 0#64)
  | .rdbyte segi off => packWord 0x08#8 0#8 (BitVec.ofNat 64 segi ++ BitVec.ofNat 64 off)

/-! ### The opcode map (R80) -/

/-- One row of the opcode map: a word selects the row when `CW AND mask = match`. -/
structure OpcodeRow where
  mnemonic : String
  matchWord : CommandWord
  maskWord : CommandWord
  deriving DecidableEq, Repr

/-- Does the word select the row? (R80) -/
def OpcodeRow.selects (r : OpcodeRow) (cw : CommandWord) : Bool := (cw &&& r.maskWord) == r.matchWord

/-- The eight rows of R80, `match` and `mask` as printed there. -/
def opcodeTable : List OpcodeRow := [
  ⟨"INIT", 0x010000000000000000000000000000000000#144, 0xffffffffffffffffffffffffffff00000000#144⟩,
  ⟨"DESC", 0x020000000000000000000000000000000000#144, 0xffffffffffffffffffffffffffff00000000#144⟩,
  ⟨"ADD", 0x030000000000000000000000000000000000#144, 0xff0000000000000000000000000000000000#144⟩,
  ⟨"HAS", 0x040000000000000000000000000000000000#144, 0xff0000000000000000000000000000000000#144⟩,
  ⟨"DERIVE", 0x050000000000000000000000000000000000#144, 0xff0000000000000000000000000000000000#144⟩,
  ⟨"RDCSR", 0x060000000000000000000000000000000000#144, 0xffffffffffffffffffffffffffffffffff00#144⟩,
  ⟨"RDLEN", 0x070000000000000000000000000000000000#144, 0xffff0000000000000000ffffffffffffffff#144⟩,
  ⟨"RDBYTE", 0x080000000000000000000000000000000000#144, 0xffff00000000000000000000000000000000#144⟩]

/-- The table's mnemonic of a command. -/
def mnemonicOf : Instr → String
  | .init _ => "INIT"
  | .desc _ => "DESC"
  | .add _ _ => "ADD"
  | .has _ _ => "HAS"
  | .derive _ _ => "DERIVE"
  | .rdcsr _ => "RDCSR"
  | .rdlen _ => "RDLEN"
  | .rdbyte _ _ => "RDBYTE"

/-! ### The host's question about one word -/

/-- The command word whose low `nbits` bits are those of `w` and whose other bits are zero, numbered as
spec/opcode_table.json numbers them: one 144-bit word, bit 143 the first on the wire (log 11). -/
def tableWord (nbits w : Nat) : CommandWord := BitVec.ofNat 144 (w % 2 ^ nbits)

/-- What the decoder reads from that word laid out as its 18 bytes; nothing where it is illegal. -/
def decodeTableWord (nbits w : Nat) : Option Instr :=
  match decodeBytes (bytesOfWord (tableWord nbits w)) with
  | .legal i => some i
  | .illegal _ => none

end Sys2Proof
end

