-- ==== Sys2Proof/Config.lean ====
section
/-! DEFINITION. The two parameters the spec leaves open for the model to take as arguments (00_scope.md R5, R6;
92_eei_decisions.md D4, D5). They are plain data carried in `State.config` and changed by no step, so a statement over
every state is a statement over every parameter pair (log 2). -/

namespace Sys2Proof

/-- `MAX_SEGMENT_SIZE` (`MSS`) and `V_MAX`, fixed for the life of the hardware. -/
structure Config where
  /-- `MAX_SEGMENT_SIZE`: the largest length of one segment, in bytes (R5). -/
  maxSegmentSize : Nat
  /-- `V_MAX`: the largest variant the unit accepts (R6). -/
  vMax : Nat
  deriving DecidableEq, Repr

/-- The premise `Params(MSS, V_MAX)` of 70_reset_and_hazards.md R257: the ranges of R5 and R6. -/
abbrev Config.valid (c : Config) : Prop :=
  1 ≤ c.maxSegmentSize ∧ c.maxSegmentSize < 2 ^ 64 ∧ 2 ≤ c.vMax ∧ c.vMax ≤ 64

end Sys2Proof
end

