-- ==== Sys2Proof/Machine/Params.lean ====
section
/-! DEFINITION. The parameter pair that `State.reset` carries (log 1). -/

namespace Sys2Proof.Machine

/-- DESIGN CHOICE (log 1): the spec leaves both parameters open (D4, D5); `State.reset` carries the pair of the spec's own
programs P1, P3 and P4 (95_test_vectors.md section 3). No statement rests on it: statements quantify over `State.config`. -/
def nominalConfig : Config := ⟨64, 16⟩

end Sys2Proof.Machine
end

