-- ==== Sys2Proof/Machine/State.lean ====
section
/-! DEFINITION. The state of the UBF unit (10_state.md R20 to R37), the response (30_encoding.md R84), the errors
(60_exceptions.md R210), the reasons a step can stop, and the state after reset. -/

namespace Sys2Proof.Machine

/-- The errors a command can end with; each is reported in `STATUS` and changes no state (60_exceptions.md R210, R218). -/
inductive UnitError where
  /-- `VAR < 2` (R211). -/
  | invalidVariant
  /-- `IDLEN != 16` (R212). -/
  | invalidIdentifier
  /-- The word decodes to *illegal* (R213). -/
  | illegalCommand
  /-- `CFG = 0` (R214). -/
  | notConfigured
  /-- `VAR > V_MAX` (R215). -/
  | unsupportedVariant
  /-- A CSR, segment or offset that does not exist (R216). -/
  | outOfRange
  deriving DecidableEq, Repr

/-- The eight control and status registers of 10_state.md R29. -/
inductive Csr where
  | status | variant | k | m | bufsz | nseg | maxseg | vmax
  deriving DecidableEq, Repr

/-- One response (30_encoding.md R84). `NBEATS` is the length of `data`, so it is computed and not stored
(`Response.nbeats`). -/
structure Response where
  /-- `STATUS`: 0 is success, 1 to 6 an error code. -/
  status : BitVec 4
  /-- `FLAG`: the Boolean result of HAS; false for every other command and every error. -/
  flag : Bool
  /-- `DATA[0 .. NBEATS-1]`, in order. -/
  data : List Beat
  deriving DecidableEq, Repr

/-- What the host may present between commands (30_encoding.md R88): a reset request or one command word. -/
inductive HostInput where
  /-- `rst` (70_reset_and_hazards.md R240). -/
  | rst
  /-- `cmd_word`. -/
  | command (cw : CommandWord)
  deriving DecidableEq, Repr

/-- The bytes of the store that are not zero, by flat byte address (10_state.md R25), addresses strictly rising. A byte
of an existing store that is not listed is zero (R111; log 5). -/
abbrev Memory := List Host.Cell

/-- The state of the unit is the triple `cfg`, `v`, `seg` (10_state.md R20). `config` holds the parameters, which are not
state and never change (log 2); `inputs` is what the host presents (log 3) and `responses` what it was answered (log 4). -/
structure State where
  /-- `MAX_SEGMENT_SIZE` and `V_MAX` (00_scope.md R5, R6). -/
  config : Config
  /-- `CFG`: does a filter exist? (R21) -/
  cfg : Bool
  /-- `V`: the variant of the filter, 0 while there is none (R22). -/
  v : BitVec 7
  /-- `SEG`: the bit store, absent while there is no filter (R23, R37). -/
  seg : Option Memory
  /-- Inputs not yet taken, oldest first. -/
  inputs : List HostInput
  /-- Responses given so far, oldest first (60_exceptions.md R220). -/
  responses : List Response
  deriving DecidableEq, Repr

/-- Why the machine stops. -/
inductive Fault where
  /-- Raised by `memRead` and `memWrite` when their precondition is broken: no store, or an address that names no cell
  (20_memory.md R46, R47, R55). Safe: no state that meets 10_state.md R26 reaches it (log 6). -/
  | noSuchCell
  deriving DecidableEq, Repr

/-- Why an instruction has no meaning. -/
inductive Refusal where
  /-- Raised by an arm of `exec` whose instruction has no meaning yet. Safe: nothing is claimed of it. No arm raises it. -/
  | notModelled (mnemonic : String)
  deriving DecidableEq, Repr

/-- What every command answers with. -/
abbrev Result := Host.Outcome State Fault Refusal

/-- The premise `AfterReset` of 70_reset_and_hazards.md R257 for given parameters: no filter, nothing pending (R36, R243). -/
def State.afterReset (c : Config) : State :=
  { config := c, cfg := false, v := 0#7, seg := none, inputs := [], responses := [] }

/-- The machine right after reset, with the parameters of log 1. -/
def State.reset : State := State.afterReset nominalConfig

end Sys2Proof.Machine
end

