-- ==== Sys2Proof/Machine/Memory.lean ====
section
/-! DEFINITION. Reading and writing the listed bytes of the store, in one canonical form (10_state.md R25; log 5). -/

namespace Sys2Proof.Machine

/-- What a byte of an existing store reads as when it is not listed: the zero of INIT's fill (40_configuration.md R111). -/
def Memory.unlisted : Byte := 0#8

/-- The store just after INIT: every byte zero (40_configuration.md R111, R112). -/
def Memory.zeroFilled : Memory := []

/-- The byte at a flat address. -/
def Memory.read : Memory → Nat → Byte
  | [], _ => Memory.unlisted
  | (b, y) :: rest, a => if a = b then y else Memory.read rest a

/-- The cell in front of the rest, or the rest alone when the byte is what an unlisted address reads as. -/
def Memory.place (a : Nat) (x : Byte) (rest : Memory) : Memory :=
  if x = Memory.unlisted then rest else (a, x) :: rest

/-- The byte at a flat address replaced, the canonical form kept. -/
def Memory.write : Memory → Nat → Byte → Memory
  | [], a, x => Memory.place a x []
  | (b, y) :: rest, a, x =>
    if a < b then Memory.place a x ((b, y) :: rest)
    else if a = b then Memory.place a x rest
    else (b, y) :: Memory.write rest a x

/-- Addresses strictly rising, all above `low` when one is given, and no zero byte listed. -/
def Memory.wfFrom : Option Nat → Memory → Bool
  | _, [] => true
  | low, (a, x) :: rest =>
    (match low with | none => true | some l => decide (l < a)) && decide (x ≠ Memory.unlisted)
      && Memory.wfFrom (some a) rest

/-- The canonical form: addresses strictly rising and no entry equal to what an unlisted address reads as. -/
def Memory.wf (m : Memory) : Bool := Memory.wfFrom none m

/-- Every listed address lies below a bound. -/
def Memory.below (bound : Nat) (m : Memory) : Bool := m.all fun c => decide (c.1 < bound)

end Sys2Proof.Machine
end

