-- ==== Sys2Proof/Machine/BitFields.lean ====
section
/-! DEFINITION. Bits of a byte and positions of the 128-bit string (00_scope.md R11 to R13). -/

namespace Sys2Proof.Machine

/-- `x.b[j]`: the bit of weight `2^j` of a byte or of any number (R11). -/
def bitOfNat (x j : Nat) : Nat := x / 2 ^ j % 2

/-- `X[hi:lo]` (R13). -/
def field (x hi lo : Nat) : Nat := x / 2 ^ lo % 2 ^ (hi - lo + 1)

/-- `S{p}` of sixteen bytes `U`, position 0 the most significant bit of byte 0 (R12, R138). -/
def stringBit (u : Nat → Nat) (p : Nat) : Nat := bitOfNat (u (p / 8)) (7 - p % 8)

/-- `zext_128(x)`: a value in its beat (R13; 30_encoding.md R84). -/
def zext128 (x : Nat) : Beat := BitVec.ofNat 128 x

end Sys2Proof.Machine
end

