-- ==== Sys2Proof/Machine/Variant.lean ====
section
/-! DEFINITION. The variant calculator and the segmentation (40_configuration.md R101 to R110). -/

namespace Sys2Proof.Machine

/-- `k(v)`: the number of groups (R101). -/
def groupCount (v : Nat) : Nat := 128 / v

/-- `m(v)`: the number of addressable bits (R102). -/
def bitCount (v : Nat) : Nat := groupCount v * 2 ^ v

/-- `bufferSize(v)`, in bytes (R103). -/
def bufferSize (v : Nat) : Nat := bitCount v / 8

/-- The loop of R108: take `min(remaining, MSS)` until nothing remains. `fuel` bounds the turns; `remaining` of them
are always enough, since a turn takes at least one byte. -/
def segListLoop (mss : Nat) : Nat → Nat → List Nat
  | 0, _ => []
  | fuel + 1, remaining =>
    if remaining = 0 then []
    else min remaining mss :: segListLoop mss fuel (remaining - min remaining mss)

/-- `SegList(v)`: the segment lengths as the document produces them (R108). -/
def segList (mss v : Nat) : List Nat := segListLoop mss (bufferSize v) (bufferSize v)

/-- `NSEG(v) = ceil(bufferSize(v) / MSS)` (R109). -/
def segCount (mss v : Nat) : Nat := (bufferSize v + mss - 1) / mss

/-- `SEGLEN(v, s)` in closed form: every segment but the last is full (R109). -/
def segLen (mss v s : Nat) : Nat :=
  if s + 1 < segCount mss v then mss else bufferSize v - s * mss

end Sys2Proof.Machine
end

