-- ==== Sys2Proof/Machine/Derivation.lean ====
section
/-! DEFINITION. Index derivation: entropy substitution, bit slicer, offset adder (41_index_derivation.md R130 to R147). -/

namespace Sys2Proof.Machine

/-- Step 1, `B[j] = ID[127 - 8j : 120 - 8j]` (R131; 30_encoding.md R72). -/
def inputByte (id : Identifier) (j : Nat) : Nat := field id.toNat (127 - 8 * j) (120 - 8 * j)

/-- Step 2, `U[6]`: the low four bits stay and the top four come from bit 0 of bytes 0 to 3 (R132). -/
def substitutedByte6 (id : Identifier) : Nat :=
  inputByte id 6 % 16 + 16 * bitOfNat (inputByte id 0) 0 + 32 * bitOfNat (inputByte id 1) 0
    + 64 * bitOfNat (inputByte id 2) 0 + 128 * bitOfNat (inputByte id 3) 0

/-- Step 3, `U[8]`: the low six bits stay and the top two come from bit 0 of bytes 4 and 5 (R133). -/
def substitutedByte8 (id : Identifier) : Nat :=
  inputByte id 8 % 64 + 64 * bitOfNat (inputByte id 4) 0 + 128 * bitOfNat (inputByte id 5) 0

/-- `U[j]`: the entropy-complete bytes; every other byte is unchanged (R134). Unconditional (R135). -/
def substitutedByte (id : Identifier) (j : Nat) : Nat :=
  if j = 6 then substitutedByte6 id
  else if j = 8 then substitutedByte8 id
  else inputByte id j

/-- `W`: the sixteen bytes as one big-endian integer (R138; 00_scope.md R12). -/
def bitString (id : Identifier) : Nat :=
  ((List.range 16).map fun j => substitutedByte id j * 2 ^ (8 * (15 - j))).sum

/-- Step 4, `g_i = floor(W / 2^(128 - (i+1)*v)) mod 2^v` (R139). -/
def group (v w i : Nat) : Nat := w / 2 ^ (128 - (i + 1) * v) % 2 ^ v

/-- Step 5, `idx_i = g_i + i * 2^v` (R143). -/
def index (v w i : Nat) : Nat := group v w i + i * 2 ^ v

/-- The indices of a bit string in group order (R146). -/
def indices (v w : Nat) : List Nat := (List.range (groupCount v)).map (index v w)

/-- `Derive(v, ID)` (R147). -/
def derive (v : Nat) (id : Identifier) : List Nat := indices v (bitString id)

/-! ### The slicer as a procedure over bytes (R141) -/

/-- The loop of R141 from string position `p` with `rem` bits still to take and `g` assembled so far. `fuel` bounds the
turns; `rem` of them are always enough, since a turn takes at least one bit. -/
def assembleLoop (u : Nat → Nat) : Nat → Nat → Nat → Nat → Nat
  | 0, _, _, g => g
  | fuel + 1, p, rem, g =>
    if rem = 0 then g
    else
      let o := p % 8
      let take := min (8 - o) rem
      let slice := u (p / 8) / 2 ^ (8 - o - take) % 2 ^ take
      assembleLoop u fuel (p + take) (rem - take) (g * 2 ^ take + slice)

/-- `Group(U, v, i)` of R141: the group assembled from the contributing bytes, most significant slice first. -/
def assembleGroup (u : Nat → Nat) (v i : Nat) : Nat := assembleLoop u v (i * v) v 0

end Sys2Proof.Machine
end

