-- ==== Sys2Proof/Machine/Operands.lean ====
section
/-! DEFINITION. The operand checks of the commands, each in the order of 60_exceptions.md R217, and the operand forms
they share. Decoding has taken every field from the word as it stands (30_encoding.md R79). -/

namespace Sys2Proof.Machine

/-- The parameter `MAX_SEGMENT_SIZE` of this unit (00_scope.md R5). -/
def State.mss (s : State) : Nat := s.config.maxSegmentSize

/-- `V` as an integer (10_state.md R22). -/
def State.variant (s : State) : Nat := s.v.toNat

/-- The operand of INIT and DESC: `InvalidVariant` when `VAR < 2` as a signed comparison, then `UnsupportedVariant` when
`VAR > V_MAX`, else the variant (40_configuration.md R100, R112, R115). -/
def variantOperand (c : Config) (var : Int) : Except UnitError Nat :=
  if var < 2 then .error .invalidVariant
  else if (c.vMax : Int) < var then .error .unsupportedVariant
  else .ok var.toNat

/-- The state check of the commands that need a filter (60_exceptions.md R214). -/
def filterCheck (s : State) : Except UnitError Unit :=
  if s.cfg then .ok () else .error .notConfigured

/-- The operand of ADD, HAS and DERIVE: `NotConfigured`, then `InvalidIdentifier` when `IDLEN != 16`, else the whole of
`Derive(V, ID)` (R212, R217, R249; 42_bit_access.md R165). `ID` is ignored when `IDLEN != 16` (30_encoding.md R75). -/
def identifierOperand (idLen : Nat) (id : Identifier) (s : State) : Except UnitError (List Nat) :=
  match filterCheck s with
  | .error e => .error e
  | .ok _ => if idLen ≠ 16 then .error .invalidIdentifier else .ok (derive s.variant id)

/-- The segment operand of RDLEN and RDBYTE: `NotConfigured`, then `OutOfRange` when `SEGI >= NSEG(V)`, else
`SEGLEN(V, SEGI)` (43_diagnostic.md R192, R193). -/
def segmentOperand (segi : Nat) (s : State) : Except UnitError Nat :=
  match filterCheck s with
  | .error e => .error e
  | .ok _ =>
    if segCount s.mss s.variant ≤ segi then .error .outOfRange
    else .ok (segLen s.mss s.variant segi)

/-- The cell operand of RDBYTE: the segment operand, then `OutOfRange` when `OFF >= SEGLEN(V, SEGI)` (R193). -/
def cellOperand (segi off : Nat) (s : State) : Except UnitError Unit :=
  match segmentOperand segi s with
  | .error e => .error e
  | .ok len => if len ≤ off then .error .outOfRange else .ok ()

/-- The CSR a number names; 0x08 to 0xFF name none (10_state.md R28, R29). -/
def Csr.ofNumber : Nat → Option Csr
  | 0 => some .status
  | 1 => some .variant
  | 2 => some .k
  | 3 => some .m
  | 4 => some .bufsz
  | 5 => some .nseg
  | 6 => some .maxseg
  | 7 => some .vmax
  | _ => none

/-- The CSR operand of RDCSR: `OutOfRange` when `CSRN > 0x07` (43_diagnostic.md R191). -/
def csrOperand (csrn : Nat) : Except UnitError Csr :=
  match Csr.ofNumber csrn with
  | some c => .ok c
  | none => .error .outOfRange

end Sys2Proof.Machine
end

