-- ==== Sys2Proof/Machine/Ops.lean ====
section
/-! DEFINITION. The named operations over the state: answering, raising an error, address translation, the bit store, the
CSRs, constructing a filter and reset. -/

namespace Sys2Proof.Machine

/-! ### Answering a command -/

/-- The code an error carries in `STATUS` (60_exceptions.md R210). -/
def UnitError.code : UnitError → BitVec 4
  | .invalidVariant => 1#4
  | .invalidIdentifier => 2#4
  | .illegalCommand => 3#4
  | .notConfigured => 4#4
  | .unsupportedVariant => 5#4
  | .outOfRange => 6#4

/-- The response of a successful command (30_encoding.md R84). -/
def okResponse (flag : Bool) (data : List Beat) : Response := { status := 0#4, flag := flag, data := data }

/-- The response of a failed command: the code, `FLAG = 0`, no beats (30_encoding.md R85). -/
def errorResponse (e : UnitError) : Response := { status := e.code, flag := false, data := [] }

/-- The number of data beats that follow (30_encoding.md R84). -/
def Response.nbeats (r : Response) : Nat := r.data.length

/-- The state after the response has been given: the log holds it last. -/
def State.answer (s : State) (r : Response) : State := { s with responses := s.responses ++ [r] }

/-- `respond(FLAG = f, DATA = d)`: the command ends with `STATUS` 0 (00_scope.md R14). -/
def respond (flag : Bool) (data : List Beat) (s : State) : Result := .next (s.answer (okResponse flag data))

/-- `raise <Error>`, the unit's one form of exception: the command ends at once, `CFG`, `V` and `SEG` keep their values,
the response carries the code, and control goes nowhere (60_exceptions.md R218). Nothing is saved or latched, so there is
no return from it (R220, R221). -/
def raise (e : UnitError) (s : State) : Result := .next (s.answer (errorResponse e))

/-! ### The segment selector -/

/-- A segment address with a bit offset: `(segmentIndex, byteOffset, bitOffset)` (20_memory.md R42). -/
structure Location where
  segment : Nat
  offset : Nat
  bit : Nat
  deriving DecidableEq, Repr

/-- `Locate(idx)` (20_memory.md R42). -/
def locate (mss idx : Nat) : Location :=
  { segment := idx / 8 / mss, offset := idx / 8 % mss, bit := idx % 8 }

/-- The inverse of `Locate` (20_memory.md R44). -/
def locationIndex (mss : Nat) (l : Location) : Nat := 8 * (l.segment * mss + l.offset) + l.bit

/-- The flat byte address of a segment address (10_state.md R25). -/
def flatAddress (mss segment offset : Nat) : Nat := segment * mss + offset

/-- `Mask(b) = 2^b` (42_bit_access.md R161; the bit order is 20_memory.md R45, log 7). -/
def mask (b : Nat) : Byte := BitVec.ofNat 8 (2 ^ b)

/-! ### The bit store -/

/-- The precondition of `MemRead` and `MemWrite`: `CFG = 1`, `s < NSEG(V)`, `o < SEGLEN(V, s)` (20_memory.md R46). -/
def cellExists (s : State) (segment offset : Nat) : Bool :=
  s.cfg && decide (segment < segCount s.mss s.variant) && decide (offset < segLen s.mss s.variant segment)

/-- `MemRead((s, o), 1)`; no value where the precondition is broken (20_memory.md R46). -/
def memRead (s : State) (segment offset : Nat) : Option Byte :=
  if cellExists s segment offset then
    s.seg.map fun m => Memory.read m (flatAddress s.mss segment offset)
  else none

/-- The state with this store. -/
def State.withSeg (s : State) (m : Memory) : State := { s with seg := some m }

/-- `MemWrite((s, o), 1, x)`; no state where the precondition is broken (20_memory.md R47). -/
def memWrite (s : State) (segment offset : Nat) (x : Byte) : Option State :=
  if cellExists s segment offset then
    s.seg.map fun m => s.withSeg (Memory.write m (flatAddress s.mss segment offset) x)
  else none

/-- `BitTest(idx)`, 1 or 0 (42_bit_access.md R163). -/
def bitTest (s : State) (idx : Nat) : Option Nat :=
  let l := locate s.mss idx
  (memRead s l.segment l.offset).map fun x => bitOfNat x.toNat l.bit

/-- `BitSet(idx)`: read, OR, write (42_bit_access.md R164). -/
def bitSet (s : State) (idx : Nat) : Option State :=
  let l := locate s.mss idx
  match memRead s l.segment l.offset with
  | some x => memWrite s l.segment l.offset (x ||| mask l.bit)
  | none => none

/-- The `k` bit sets of ADD in order, each complete before the next begins (42_bit_access.md R166). -/
def bitSetAll : List Nat → State → Option State
  | [], s => some s
  | idx :: rest, s =>
    match bitSet s idx with
    | some s' => bitSetAll rest s'
    | none => none

/-! ### Views of the bit store (10_state.md R23, R25) -/

/-- `FLAT[a]`, for `0 <= a < bufferSize(V)` while a filter exists. -/
def flatByte (s : State) (a : Nat) : Option Byte :=
  if s.cfg && decide (a < bufferSize s.variant) then s.seg.map fun m => Memory.read m a else none

/-- `BITS[idx] = FLAT[idx div 8].b[idx mod 8]`. -/
def storeBit (s : State) (idx : Nat) : Option Nat :=
  (flatByte s (idx / 8)).map fun x => bitOfNat x.toNat (idx % 8)

/-- `SEG` as the ordered sequence of segments, each an array of bytes (R23). -/
def segView (s : State) : Option (List (List Byte)) :=
  if s.cfg then
    s.seg.map fun m =>
      (List.range (segCount s.mss s.variant)).map fun i =>
        (List.range (segLen s.mss s.variant i)).map fun o => Memory.read m (flatAddress s.mss i o)
  else none

/-! ### Control and status registers -/

/-- A value that reads 0 while there is no filter (10_state.md R29). -/
def whenConfigured (s : State) (x : Nat) : Nat := if s.cfg then x else 0

/-- `CSR[n]` (10_state.md R29). -/
def readCsr (s : State) : Csr → Nat
  | .status => if s.cfg then 1 else 0
  | .variant => whenConfigured s s.variant
  | .k => whenConfigured s (groupCount s.variant)
  | .m => whenConfigured s (bitCount s.variant)
  | .bufsz => whenConfigured s (bufferSize s.variant)
  | .nseg => whenConfigured s (segCount s.mss s.variant)
  | .maxseg => s.config.maxSegmentSize
  | .vmax => s.config.vMax

/-! ### Constructing and freeing a filter -/

/-- The state change of a successful INIT: a new all-zero store whatever was there (40_configuration.md R112, R113). -/
def constructFilter (v : Nat) (s : State) : State :=
  { s with cfg := true, v := BitVec.ofNat 7 v, seg := some Memory.zeroFilled }

/-- Reset: `CFG <- 0`, `V <- 0`, `SEG` ceases to exist; the parameters survive (70_reset_and_hazards.md R240, R242). -/
def resetUnit (s : State) : State := { s with cfg := false, v := 0#7, seg := none }

end Sys2Proof.Machine
end

