-- ==== Sys2Proof/Machine/Flags.lean ====
section
/-! DEFINITION. The one flag of the unit: `FLAG` of a response (30_encoding.md R84, R86; 10_state.md R34). It is the
Boolean result of HAS and is 0 for every other command and every error. -/

namespace Sys2Proof.Machine

/-- `FLAG` of every successful command but HAS (R86). -/
def noFlag : Bool := false

/-- `FLAG` of HAS: false at the first zero bit, true after all are tested (42_bit_access.md R169). -/
def allBitsSet (s : State) : List Nat → Option Bool
  | [] => some true
  | idx :: rest =>
    match bitTest s idx with
    | some b => if b = 0 then some false else allBitsSet s rest
    | none => none

end Sys2Proof.Machine
end

