-- ==== Sys2Proof/Machine/BitAccess.lean ====
section
/-! DEFINITION. The bit access family: ADD and HAS (42_bit_access.md). -/

namespace Sys2Proof.Machine

/-- ADD: all indices first, then the bit sets in group order (R165, R166). -/
def execAdd (idLen : Nat) (id : Identifier) (s : State) : Result :=
  match identifierOperand idLen id s with
  | .error e => raise e s
  | .ok idx =>
    match bitSetAll idx s with
    | some s' => respond noFlag [] s'
    | none => .fault .noSuchCell

/-- HAS: `FLAG` says whether every bit is set; no state is written (R169). -/
def execHas (idLen : Nat) (id : Identifier) (s : State) : Result :=
  match identifierOperand idLen id s with
  | .error e => raise e s
  | .ok idx =>
    match allBitsSet s idx with
    | some flag => respond flag [] s
    | none => .fault .noSuchCell

end Sys2Proof.Machine
end

