-- ==== Sys2Proof/Machine/Configuration.lean ====
section
/-! DEFINITION. The configuration family: INIT and DESC (40_configuration.md). -/

namespace Sys2Proof.Machine

/-- The beats of DESC: `k(v)`, `m(v)`, `bufferSize(v)` (R115). -/
def describeBeats (v : Nat) : List Beat :=
  [zext128 (groupCount v), zext128 (bitCount v), zext128 (bufferSize v)]

/-- The beats of INIT: those of DESC and `NSEG(v)` (R112). -/
def initBeats (mss v : Nat) : List Beat := describeBeats v ++ [zext128 (segCount mss v)]

/-- INIT (R112 to R114). Legal in every state; it never raises `NotConfigured`. -/
def execInit (var : Int) (s : State) : Result :=
  match variantOperand s.config var with
  | .error e => raise e s
  | .ok v => respond noFlag (initBeats s.mss v) (constructFilter v s)

/-- DESC (R115, R116). Reads no state but the parameter and writes none. -/
def execDesc (var : Int) (s : State) : Result :=
  match variantOperand s.config var with
  | .error e => raise e s
  | .ok v => respond noFlag (describeBeats v) s

end Sys2Proof.Machine
end

