-- ==== Sys2Proof/Machine/Diagnostic.lean ====
section
/-! DEFINITION. The diagnostic family: RDCSR, RDLEN and RDBYTE, which read and never write (43_diagnostic.md R190). -/

namespace Sys2Proof.Machine

/-- RDCSR: legal in every state (R191). -/
def execRdcsr (csrn : Nat) (s : State) : Result :=
  match csrOperand csrn with
  | .error e => raise e s
  | .ok c => respond noFlag [zext128 (readCsr s c)] s

/-- RDLEN (R192). -/
def execRdlen (segi : Nat) (s : State) : Result :=
  match segmentOperand segi s with
  | .error e => raise e s
  | .ok len => respond noFlag [zext128 len] s

/-- RDBYTE (R193). -/
def execRdbyte (segi off : Nat) (s : State) : Result :=
  match cellOperand segi off s with
  | .error e => raise e s
  | .ok _ =>
    match memRead s segi off with
    | some x => respond noFlag [zext128 x.toNat] s
    | none => .fault .noSuchCell

end Sys2Proof.Machine
end

