-- ==== Sys2Proof/Machine/IndexDerivation.lean ====
section
/-! DEFINITION. The command of the index derivation family: DERIVE (41_index_derivation.md R148). -/

namespace Sys2Proof.Machine

/-- DERIVE: the indices in group order, each zero-extended into its beat (R148, R149). Reads no byte of the store. -/
def execDerive (idLen : Nat) (id : Identifier) (s : State) : Result :=
  match identifierOperand idLen id s with
  | .error e => raise e s
  | .ok idx => respond noFlag (idx.map zext128) s

end Sys2Proof.Machine
end

