-- ==== Sys2Proof/Machine/Dispatch.lean ====
section
/-! DEFINITION. One arm per command of the opcode map (30_encoding.md R80). -/

namespace Sys2Proof.Machine

def exec (i : Instr) (s : State) : Host.Outcome State Fault Refusal :=
  match i with
  | .init var => Sys2Proof.Machine.execInit var s
  | .desc var => Sys2Proof.Machine.execDesc var s
  | .add idLen id => Sys2Proof.Machine.execAdd idLen id s
  | .has idLen id => Sys2Proof.Machine.execHas idLen id s
  | .derive idLen id => Sys2Proof.Machine.execDerive idLen id s
  | .rdcsr csrn => Sys2Proof.Machine.execRdcsr csrn s
  | .rdlen segi => Sys2Proof.Machine.execRdlen segi s
  | .rdbyte segi off => Sys2Proof.Machine.execRdbyte segi off s

end Sys2Proof.Machine
end

