-- ==== Sys2Proof/Machine/Command.lean ====
section
/-! DEFINITION. Taking one input of the host: a reset request or a command word (30_encoding.md R81, R88;
70_reset_and_hazards.md R240). -/

namespace Sys2Proof.Machine

/-- One command word: an illegal one raises `IllegalCommand` before any state or operand is looked at (60_exceptions.md
R213, R217), a legal one has its command's effect. -/
def runCommand (cw : CommandWord) (s : State) : Result :=
  match decode cw with
  | .legal i => exec i s
  | .illegal _ => raise .illegalCommand s

/-- One input. Reset gives no response (R255). -/
def runInput (input : HostInput) (s : State) : Result :=
  match input with
  | .rst => .next (resetUnit s)
  | .command cw => runCommand cw s

/-- The state with its oldest input taken from the port. -/
def State.withInputs (s : State) (rest : List HostInput) : State := { s with inputs := rest }

end Sys2Proof.Machine
end

