-- ==== Sys2Proof/Machine/Step.lean ====
section
/-! DEFINITION. One step: the unit takes the host's next input and gives its response, one command at a time
(00_scope.md R9; 30_encoding.md R89; 20_memory.md R57). -/

namespace Sys2Proof.Machine

/-- One step. With nothing presented the state simply persists (70_reset_and_hazards.md R256; log 3). -/
def step (s : State) : Host.Outcome State Fault Refusal :=
  match s.inputs with
  | [] => .next s
  | input :: rest => runInput input (s.withInputs rest)

/-- The state in which the host presents this word next (log 3, log 11). -/
def State.withFetchWord (s : State) (nbits w : Nat) : State :=
  { s with inputs := .command (tableWord nbits w) :: s.inputs }

end Sys2Proof.Machine
end

