-- ==== Sys2Proof/Machine/Serial.lean ====
section
/-! DEFINITION. A response moved as bytes (30_encoding.md R87). -/

namespace Sys2Proof.Machine

/-- Header byte 0 = `{STATUS[3:0], 0b000, FLAG}`. -/
def headerByte0 (r : Response) : Byte := r.status ++ 0#3 ++ BitVec.ofBool r.flag

/-- Header byte 1 = `{0b0, NBEATS[6:0]}`. -/
def headerByte1 (r : Response) : Byte := 0#1 ++ BitVec.ofNat 7 r.nbeats

/-- The 16 bytes of a beat, most significant first. -/
def beatBytes (b : Beat) : List Byte := (List.range 16).map fun j => b.extractLsb' (8 * (15 - j)) 8

/-- The response as bytes: the header, then each beat. -/
def responseBytes (r : Response) : List Byte :=
  headerByte0 r :: headerByte1 r :: (r.data.map beatBytes).flatten

end Sys2Proof.Machine
end

