-- ==== Sys2Proof/Safety.lean ====
section
/-! DEFINITION. What a safe state and a run are, in the terms the statements use: the invariants of 10_state.md R26, the
named premises of 70_reset_and_hazards.md R257, reachability, and what the host may do without losing the filter. -/

namespace Sys2Proof.Safety

open Sys2Proof.Machine

/-- The store has the shape of 40_configuration.md R109 for this variant: it is there, in canonical form, and holds
nothing outside its `bufferSize(v)` bytes. -/
def storeShape (v : Nat) : Option Memory → Bool
  | none => false
  | some m => m.wf && m.below (bufferSize v)

/-- `AfterReset` (R257): `CFG = 0`, `V = 0`, `SEG` absent. -/
abbrev AfterReset (s : State) : Prop := s.cfg = false ∧ s.v = 0#7 ∧ s.seg = none

/-- `Configured(v)` (R257). -/
abbrev Configured (v : Nat) (s : State) : Prop :=
  s.cfg = true ∧ s.variant = v ∧ 2 ≤ v ∧ v ≤ s.config.vMax ∧ storeShape v s.seg = true

/-- `Empty(v)` (R257): `Configured(v)` and every byte 0, the state just after `INIT v`. -/
abbrev Empty (v : Nat) (s : State) : Prop := Configured v s ∧ s.seg = some Memory.zeroFilled

/-- The state invariants (a), (b), (c) of 10_state.md R26 under `Params` (R257). -/
abbrev Inv (s : State) : Prop :=
  s.config.valid ∧ (s.cfg = false → AfterReset s) ∧ (s.cfg = true → Configured s.variant s)

/-- The states the unit can come to: from reset with any parameters in range, by steps, the host presenting what it
likes when it likes (70_reset_and_hazards.md R256). -/
inductive Reachable : State → Prop where
  | afterReset (c : Config) (hc : c.valid) : Reachable (State.afterReset c)
  | present (s : State) (input : HostInput) (hs : Reachable s) : Reachable (s.withInputs (s.inputs ++ [input]))
  | step (s t : State) (hs : Reachable s) (ht : Machine.step s = .next t) : Reachable t

/-- A response of the form of 30_encoding.md R84 and R85: a defined code, at most 64 beats, and nothing beside the code
on an error. -/
def responseOk (r : Response) : Bool :=
  decide (r.status.toNat ≤ 6) && decide (r.nbeats ≤ 64)
    && (decide (r.status = 0#4) || (!r.flag && decide (r.data = [])))

/-- Does the filter survive this input? Not a reset and not an INIT that succeeds (42_bit_access.md R171, R175). -/
def keepsFilter (c : Config) : HostInput → Bool
  | .rst => false
  | .command cw =>
    match decode cw with
    | .legal (.init var) => decide (var < 2) || decide ((c.vMax : Int) < var)
    | _ => true

/-- What the host presents to issue a command. -/
def issue (i : Instr) : HostInput := .command (encode i)

/-- The state with one response more and everything else as it was: what a command leaves behind that changes no state. -/
abbrev answered (s : State) (status : BitVec 4) (flag : Bool) (data : List Beat) : State :=
  { s with responses := s.responses ++ [{ status := status, flag := flag, data := data }] }

/-- The CSRs read as the reset column of 10_state.md R29: 0x00 to 0x05 read 0, `MAXSEG` and `VMAX` the parameters. -/
abbrev CsrsReadAsReset (s : State) : Prop :=
  (∀ n, n ≤ 5 → exec (.rdcsr n) s = .next (answered s 0#4 false [0#128]))
    ∧ exec (.rdcsr 6) s = .next (answered s 0#4 false [BitVec.ofNat 128 s.config.maxSegmentSize])
    ∧ exec (.rdcsr 7) s = .next (answered s 0#4 false [BitVec.ofNat 128 s.config.vMax])

/-- The byte `x` with the bits of the indices that lie in flat byte `a` set (42_bit_access.md R168). -/
def orMasksAt (a : Nat) (idx : List Nat) (x : Byte) : Byte :=
  (idx.filter fun i => decide (i / 8 = a)).foldl (fun y i => y ||| BitVec.ofNat 8 (2 ^ (i % 8))) x

end Sys2Proof.Safety
end

