-- ==== Sys2Proof/Certificates/Slice0/Obligations.lean ====
section
/-! DEFINITION. The statements about the UBF unit, for the provers. Each docstring names the rule it formalises; a clause
that rests on a choice of the model's own says so and names the log entry. -/

open Sys2Proof Sys2Proof.Machine Sys2Proof.Safety

/-! ### Encoding -/

/-- Decoding the word of any well-formed command gives the command back, every operand at every value (R70, R73 to R78). -/
def Obligations.DecodeOfEncodeIsTheCommand : Prop :=
  ∀ i : Instr, i.wf = true → decode (encode i) = .legal i

/-- Every legal word is the encoding of the well-formed command it decodes to: no bit of it is ignored (R79, R81, R83). -/
def Obligations.LegalWordIsTheEncodingOfItsCommand : Prop :=
  ∀ (cw : CommandWord) (i : Instr), decode cw = .legal i → encode i = cw ∧ i.wf = true

/-- R80: the opcode map's `match` and `mask` select exactly the words that decode to the row's command, and no word
selects two rows. -/
def Obligations.OpcodeMapSelectsTheDecodedCommand : Prop :=
  ∀ cw : CommandWord,
    (∀ r ∈ opcodeTable,
      cw &&& r.maskWord = r.matchWord ↔ ∃ i, decode cw = .legal i ∧ mnemonicOf i = r.mnemonic)
    ∧ ∀ r ∈ opcodeTable, ∀ r' ∈ opcodeTable,
      cw &&& r.maskWord = r.matchWord → cw &&& r'.maskWord = r'.matchWord → r = r'

/-- R82, R83, R213: a reserved opcode or a must-be-zero field that is not zero, and nothing else, makes a word illegal;
an illegal word is answered with code 3 in every state and changes nothing else. -/
def Obligations.IllegalWordsAreTheReservedOnes : Prop :=
  ∀ (cw : CommandWord) (s : State) (rest : List HostInput),
    let illegal : Prop :=
      opOf cw = 0x00#8 ∨ 9 ≤ (opOf cw).toNat
      ∨ ((opOf cw = 0x01#8 ∨ opOf cw = 0x02#8) ∧ (auxOf cw ≠ 0#8 ∨ cwField cw 32 96 ≠ 0#96))
      ∨ (opOf cw = 0x06#8 ∧ (auxOf cw ≠ 0#8 ∨ cwField cw 8 120 ≠ 0#120))
      ∨ (opOf cw = 0x07#8 ∧ (auxOf cw ≠ 0#8 ∨ cwField cw 0 64 ≠ 0#64))
      ∨ (opOf cw = 0x08#8 ∧ auxOf cw ≠ 0#8)
    (illegal →
      step { s with inputs := .command cw :: rest } = .next (answered { s with inputs := rest } 3#4 false []))
    ∧ (¬illegal → ∃ i, decode cw = .legal i)

/-- R71: as bytes a word is 18 bytes, `OP`, `AUX`, then `ARG` most significant first; decoding those bytes is decoding
the word, and no other number of bytes is a word. -/
def Obligations.CommandWordAsBytes : Prop :=
  ∀ cw : CommandWord,
    (bytesOfWord cw).length = 18
    ∧ (bytesOfWord cw)[0]? = some (opOf cw)
    ∧ (bytesOfWord cw)[1]? = some (auxOf cw)
    ∧ (∀ j, j < 16 → (bytesOfWord cw)[2 + j]? = some ((argOf cw).extractLsb' (120 - 8 * j) 8))
    ∧ decodeBytes (bytesOfWord cw) = decode cw
    ∧ ∀ bs : List Byte, decodeBytes bs = decode cw → (∃ i, decode cw = .legal i) → bs.length = 18

/-- The encoding examples of section 7 of 30_encoding.md decode to the commands they stand for. -/
def Obligations.EncodingExamplesDecode : Prop :=
  decode 0x010000000000000000000000000000000004#144 = .legal (.init 4)
  ∧ decode 0x0100000000000000000000000000ffffffff#144 = .legal (.init (-1))
  ∧ decode 0x020000000000000000000000000000000002#144 = .legal (.desc 2)
  ∧ decode 0x0310123e4567e89b42d3a456426614174000#144
      = .legal (.add 16 0x123e4567e89b42d3a456426614174000#128)
  ∧ decode 0x0410123e4567e89b42d3a456426614174000#144
      = .legal (.has 16 0x123e4567e89b42d3a456426614174000#128)
  ∧ decode 0x050f123e4567e89b42d3a456426614174000#144
      = .legal (.derive 15 0x123e4567e89b42d3a456426614174000#128)
  ∧ decode 0x060000000000000000000000000000000002#144 = .legal (.rdcsr 2)
  ∧ decode 0x070000000000000000010000000000000000#144 = .legal (.rdlen 1)
  ∧ decode 0x080000000000000000010000000000000023#144 = .legal (.rdbyte 1 35)

/-- R74: `VAR` is `ARG[31:0]` if `ARG[31] = 0`, else `ARG[31:0] - 2^32`, and so lies in `-2^31 .. 2^31 - 1`. -/
def Obligations.VariantOperandIsSigned : Prop :=
  ∀ (cw : CommandWord) (var : Int), decode cw = .legal (.init var) ∨ decode cw = .legal (.desc var) →
    (var = if (argOf cw).getLsbD 31 then ((argOf cw).extractLsb' 0 32).toNat - (2 : Int) ^ 32
      else ((argOf cw).extractLsb' 0 32).toNat)
    ∧ -2 ^ 31 ≤ var ∧ var ≤ 2 ^ 31 - 1

/-- R72: in a format I word identifier byte `j` is `ARG[127 - 8j : 120 - 8j]`, which is command byte `2 + j`. -/
def Obligations.IdentifierBytesAreCommandBytes : Prop :=
  ∀ (cw : CommandWord) (n : Nat) (id : Identifier),
    decode cw = .legal (.add n id) ∨ decode cw = .legal (.has n id) ∨ decode cw = .legal (.derive n id) →
    n = (auxOf cw).toNat
    ∧ ∀ j, j < 16 →
      inputByte id j = ((argOf cw).extractLsb' (120 - 8 * j) 8).toNat
      ∧ (bytesOfWord cw)[2 + j]?.map BitVec.toNat = some (inputByte id j)

/-! ### The step, reset and the invariant -/

/-- A step takes the host's next word and runs the command it decodes to, nothing added; the second clause says the same
of the host's way of presenting a word of the opcode table (log 3, log 11). -/
def Obligations.StepRunsTheDecodedCommand : Prop :=
  (∀ (s : State) (cw : CommandWord) (rest : List HostInput) (i : Instr), decode cw = .legal i →
    step { s with inputs := .command cw :: rest } = exec i { s with inputs := rest })
  ∧ ∀ (s : State) (nbits w : Nat) (i : Instr), decodeTableWord nbits w = some i →
    step (s.withFetchWord nbits w) = exec i s

/-- With nothing presented the state persists (R256; that a step then exists at all is log 3). -/
def Obligations.StepWithoutInputChangesNothing : Prop :=
  ∀ s : State, s.inputs = [] → step s = .next s

/-- R240: reset clears `CFG` and `V`, the store ceases to exist, every CSR reads its reset value, and nothing else
changes; the parameters survive. -/
def Obligations.ResetFreesTheFilter : Prop :=
  ∀ (s : State) (rest : List HostInput),
    let t : State := { s with cfg := false, v := 0#7, seg := none, inputs := rest }
    step { s with inputs := .rst :: rest } = .next t ∧ CsrsReadAsReset t

/-- R36: after reset, with any parameters, there is no filter and the CSRs read as the reset column of R29. -/
def Obligations.StateAfterReset : Prop :=
  ∀ c : Config, AfterReset (State.afterReset c) ∧ CsrsReadAsReset (State.afterReset c)
    ∧ (State.afterReset c).config = c ∧ (State.afterReset c).responses = []

/-- The invariants of R26 hold after reset with any parameters in range, whatever the host presents; the last clause is
about the parameter pair of `State.reset`, a choice of the model (log 1). -/
def Obligations.ResetMeetsTheInvariant : Prop :=
  (∀ (c : Config) (inputs : List HostInput), c.valid → Inv ((State.afterReset c).withInputs inputs))
  ∧ Inv State.reset

/-- Every step keeps the invariants of R26, from every state that meets them. -/
def Obligations.StepKeepsTheInvariant : Prop :=
  ∀ s t : State, Inv s → step s = .next t → Inv t

/-- The invariants of R26 hold in every state the unit can come to (R257): any parameters in range, any inputs. -/
def Obligations.ReachableStatesMeetTheInvariant : Prop :=
  ∀ s : State, Reachable s → Inv s

/-- R254: every command terminates and the unit cannot hang: in every state that meets R26 every command and every step
answers a next state; none faults and none is refused. That the commands include terms no command word decodes to, with
operands outside their fields, is the model's choice (log 9). -/
def Obligations.EveryCommandCompletes : Prop :=
  ∀ s : State, Inv s → (∀ i : Instr, ∃ t, exec i s = .next t) ∧ ∃ t, step s = .next t

/-- R84, R85: a command word gives exactly one response, of the stated form; `FLAG` is 1 only for HAS. -/
def Obligations.EveryCommandGivesOneResponse : Prop :=
  ∀ (s t : State) (cw : CommandWord) (rest : List HostInput), Inv s → s.inputs = .command cw :: rest →
    step s = .next t →
    t.inputs = rest ∧ ∃ r : Response, t.responses = s.responses ++ [r] ∧ responseOk r = true
      ∧ (r.flag = true → ∃ n id, decode cw = .legal (.has n id))

/-- No step changes the parameters (R5, R6, R28, R242). -/
def Obligations.ParametersNeverChange : Prop :=
  ∀ s t : State, step s = .next t → t.config = s.config

/-- R30: which command writes which state. -/
def Obligations.WhichCommandWritesWhichState : Prop :=
  ∀ (s t : State) (input : HostInput) (rest : List HostInput), Inv s → s.inputs = input :: rest →
    step s = .next t →
    (input = .rst → t.cfg = false ∧ t.v = 0#7 ∧ t.seg = none)
    ∧ ∀ cw, input = .command cw →
      (∀ var, decode cw = .legal (.init var) →
        if 2 ≤ var ∧ var ≤ s.config.vMax then
          t.cfg = true ∧ (t.v.toNat : Int) = var ∧ ∀ a, a < bufferSize var.toNat → flatByte t a = some 0#8
        else t.cfg = s.cfg ∧ t.v = s.v ∧ t.seg = s.seg)
      ∧ (∀ n id, decode cw = .legal (.add n id) →
        t.cfg = s.cfg ∧ t.v = s.v
        ∧ (s.cfg = false ∨ n ≠ 16 → t.seg = s.seg)
        ∧ ∀ idx, storeBit t idx = storeBit s idx
          ∨ (s.cfg = true ∧ n = 16 ∧ idx ∈ derive s.v.toNat id ∧ storeBit t idx = some 1))
      ∧ ((∀ var, decode cw ≠ .legal (.init var)) → (∀ n id, decode cw ≠ .legal (.add n id)) →
        t.cfg = s.cfg ∧ t.v = s.v ∧ t.seg = s.seg)

/-- R218, R219: a command that ends with an error changes nothing but the log, and its response carries the code alone. -/
def Obligations.FailedCommandChangesNothing : Prop :=
  ∀ (i : Instr) (s t : State) (r : Response), exec i s = .next t → t.responses = s.responses ++ [r] →
    r.status ≠ 0#4 → r.flag = false ∧ r.data = [] ∧ t = answered s r.status false []

/-- R221: repeating a failed command on the state it left fails the same way. -/
def Obligations.RepeatedFailedCommandFailsTheSameWay : Prop :=
  ∀ (i : Instr) (s t : State) (r : Response), exec i s = .next t → t.responses = s.responses ++ [r] →
    r.status ≠ 0#4 → exec i t = .next (answered t r.status false [])

/-- No command reads the log of responses or the inputs still waiting (R33, R220): with others in their place it has the
same response and the same effect. -/
def Obligations.CommandsReadOnlyTheUnit : Prop :=
  ∀ (i : Instr) (s t : State) (log : List Response) (waiting : List HostInput), exec i s = .next t →
    ∃ r : Response, t.responses = s.responses ++ [r] ∧ t.inputs = s.inputs
      ∧ exec i { s with responses := log, inputs := waiting }
        = .next { t with responses := log ++ [r], inputs := waiting }

/-! ### Configuration: INIT and DESC -/

/-- R112, R113: INIT in every case. A success builds the same filter whatever was there before, `NSEG` segments of zero
bytes, and changes nothing else. -/
def Obligations.InitBuildsAFilter : Prop :=
  ∀ (s : State) (var : Int),
    (var < 2 → exec (.init var) s = .next (answered s 1#4 false []))
    ∧ (2 ≤ var → (s.config.vMax : Int) < var → exec (.init var) s = .next (answered s 5#4 false []))
    ∧ (2 ≤ var → var ≤ s.config.vMax →
      let v := var.toNat
      let k := 128 / v
      let m := k * 2 ^ v
      let size := m / 8
      let nseg := (size + s.config.maxSegmentSize - 1) / s.config.maxSegmentSize
      let beats := [BitVec.ofNat 128 k, BitVec.ofNat 128 m, BitVec.ofNat 128 size, BitVec.ofNat 128 nseg]
      let built : State := { s with cfg := true, v := BitVec.ofNat 7 v, seg := some [] }
      exec (.init var) s = .next (answered built 0#4 false beats)
      ∧ (s.config.valid → built.v.toNat = v ∧ segView built = some ((List.range nseg).map fun g =>
          List.replicate (if g + 1 < nseg then s.config.maxSegmentSize else size - g * s.config.maxSegmentSize) 0#8)))
    ∧ ∀ cw : CommandWord, opOf cw = 0x01#8 → auxOf cw ≠ 0#8 ∨ cwField cw 32 96 ≠ 0#96 →
      runCommand cw s = .next (answered s 3#4 false [])

/-- R115, R116: DESC in every case. It answers from its operand and the parameter alone and changes nothing. -/
def Obligations.DescDescribesAVariant : Prop :=
  ∀ (s : State) (var : Int),
    (var < 2 → exec (.desc var) s = .next (answered s 1#4 false []))
    ∧ (2 ≤ var → (s.config.vMax : Int) < var → exec (.desc var) s = .next (answered s 5#4 false []))
    ∧ (2 ≤ var → var ≤ s.config.vMax →
      let v := var.toNat
      let k := 128 / v
      let m := k * 2 ^ v
      exec (.desc var) s = .next (answered s 0#4 false
        [BitVec.ofNat 128 k, BitVec.ofNat 128 m, BitVec.ofNat 128 (m / 8)]))
    ∧ ∀ cw : CommandWord, opOf cw = 0x02#8 → auxOf cw ≠ 0#8 ∨ cwField cw 32 96 ≠ 0#96 →
      runCommand cw s = .next (answered s 3#4 false [])

/-- R111, R251 and the corner cases of R169 and R193: just after INIT every byte reads 0 and every HAS answers false. -/
def Obligations.NewFilterIsEmpty : Prop :=
  ∀ (s t : State) (var : Int), s.config.valid → 2 ≤ var → var ≤ s.config.vMax → exec (.init var) s = .next t →
    Empty var.toNat t
    ∧ (∀ g o, g < segCount t.config.maxSegmentSize var.toNat →
        o < segLen t.config.maxSegmentSize var.toNat g →
        exec (.rdbyte g o) t = .next (answered t 0#4 false [0#128]))
    ∧ ∀ id, exec (.has 16 id) t = .next (answered t 0#4 false [])

/-- R104: `bufferSize(v)` is exact for every valid variant. -/
def Obligations.BufferSizeIsExact : Prop :=
  ∀ v : Nat, 2 ≤ v →
    8 * bufferSize v = bitCount v
    ∧ (v = 2 → bitCount v = 256 ∧ bufferSize v = 32)
    ∧ (3 ≤ v → 8 ∣ 2 ^ v ∧ bufferSize v = 128 / v * 2 ^ (v - 3))

/-- R109: the list that the loop of R108 produces has the closed form `NSEG`, `SEGLEN`, for every variant whose store has a
byte at all (R105). -/
def Obligations.SegmentListHasItsClosedForm : Prop :=
  ∀ mss v : Nat, 1 ≤ mss → 2 ≤ v → v ≤ 128 →
    let n := segCount mss v
    let size := bufferSize v
    (segList mss v).length = n
    ∧ (n - 1) * mss < size ∧ size ≤ n * mss
    ∧ (∀ i, i < n → (segList mss v)[i]? = some (segLen mss v i))
    ∧ (∀ i, i + 1 < n → segLen mss v i = mss)
    ∧ segLen mss v (n - 1) = size - (n - 1) * mss
    ∧ segLen mss v (n - 1) = (if size % mss = 0 then mss else size % mss)
    ∧ segLen mss v (n - 1) ≠ 0
    ∧ (size ≤ mss → n = 1 ∧ segLen mss v 0 = size)
    ∧ ∀ i a, i < n → (i * mss ≤ a ∧ a < i * mss + segLen mss v i ↔ a < size ∧ a / mss = i)

/-- R110: the segment lengths sum exactly to `bufferSize`, each the lesser of the bytes still needed and the maximum. -/
def Obligations.SegmentLengthsSumToBufferSize : Prop :=
  ∀ mss v : Nat, 1 ≤ mss → 2 ≤ v →
    (segList mss v).sum = bufferSize v
    ∧ ((List.range (segCount mss v)).map (segLen mss v)).sum = bufferSize v
    ∧ ∀ i, i < segCount mss v →
      segLen mss v i = min (bufferSize v - ((segList mss v).take i).sum) mss
      ∧ ((segList mss v).take i).sum = i * mss

/-- R107: the ranges of every quantity for supported variants. -/
def Obligations.QuantitiesStayInRange : Prop :=
  ∀ mss v : Nat, 1 ≤ mss → mss < 2 ^ 64 → 2 ≤ v → v ≤ 64 →
    (2 ≤ groupCount v ∧ groupCount v ≤ 64)
    ∧ (256 ≤ bitCount v ∧ bitCount v ≤ 2 ^ 65)
    ∧ (32 ≤ bufferSize v ∧ bufferSize v ≤ 2 ^ 62)
    ∧ (1 ≤ segCount mss v ∧ segCount mss v ≤ bufferSize v)
    ∧ (∀ i, i < segCount mss v → 1 ≤ segLen mss v i ∧ segLen mss v i ≤ mss)
    ∧ ∀ id, ∀ idx ∈ derive v id, idx < bitCount v ∧ idx / 8 < 2 ^ 62

/-! ### Index derivation -/

/-- R132, R133, R134: the substituted bytes, in the C notation of the rules; every other byte is the input byte. -/
def Obligations.EntropySubstitution : Prop :=
  ∀ id : Identifier,
    let b := fun j => (id.extractLsb' (120 - 8 * j) 8).toNat
    substitutedByte id 6
      = ((b 6 &&& 0x0F) ||| ((b 0 &&& 1) <<< 4) ||| ((b 1 &&& 1) <<< 5) ||| ((b 2 &&& 1) <<< 6)
        ||| ((b 3 &&& 1) <<< 7))
    ∧ substitutedByte id 8 = ((b 8 &&& 0x3F) ||| ((b 4 &&& 1) <<< 6) ||| ((b 5 &&& 1) <<< 7))
    ∧ ∀ j, j < 16 → j ≠ 6 → j ≠ 8 → substitutedByte id j = b j

/-- R138: position `p` of the string is bit `127 - p` of `W`, which is bit `7 - p mod 8` of byte `p div 8`. -/
def Obligations.BitStringIsBigEndian : Prop :=
  ∀ id : Identifier,
    bitString id = ∑ j ∈ Finset.range 16, substitutedByte id j * 2 ^ (8 * (15 - j))
    ∧ bitString id < 2 ^ 128
    ∧ ∀ p, p < 128 → bitString id / 2 ^ (127 - p) % 2 = substitutedByte id (p / 8) / 2 ^ (7 - p % 8) % 2

/-- R135: two identifiers that differ only in the six overwritten bits (string positions 48 to 51, 64 and 65) derive the
same indices for every variant and are the same element to every command. -/
def Obligations.OverwrittenBitsNeverMatter : Prop :=
  ∀ id id' : Identifier,
    (∀ p, p < 128 → ¬(48 ≤ p ∧ p ≤ 51) → p ≠ 64 → p ≠ 65 → id.getMsbD p = id'.getMsbD p) →
    ∀ v, derive v id = derive v id'
      ∧ ∀ (n : Nat) (s : State), exec (.add n id) s = exec (.add n id') s
        ∧ exec (.has n id) s = exec (.has n id') s ∧ exec (.derive n id) s = exec (.derive n id') s

/-- R139: group `i` reads string positions `i*v` to `i*v + v - 1`, most significant first. -/
def Obligations.GroupReadsItsPositions : Prop :=
  ∀ (id : Identifier) (v i : Nat), 2 ≤ v → v ≤ 64 → i < 128 / v →
    group v (bitString id) i
      = ((List.range v).map fun t => stringBit (substitutedByte id) (i * v + t) * 2 ^ (v - 1 - t)).sum
    ∧ group v (bitString id) i = field (bitString id) (127 - i * v) (128 - (i + 1) * v)
    ∧ group v (bitString id) i = bitString id / 2 ^ (128 - (i + 1) * v) % 2 ^ v
    ∧ group v (bitString id) i < 2 ^ v

/-- R141: assembling a group from the contributing bytes gives the same value for every input, and a group touches at
most `floor((v + 6) / 8) + 1` bytes. -/
def Obligations.GroupAssembledFromBytes : Prop :=
  ∀ (id : Identifier) (v i : Nat), 2 ≤ v → v ≤ 64 → i < 128 / v →
    assembleGroup (substitutedByte id) v i = group v (bitString id) i
    ∧ (i * v + v - 1) / 8 - i * v / 8 + 1 ≤ (v + 6) / 8 + 1

/-- R144: the sum never carries, so the index is the concatenation of the group number and the group value. -/
def Obligations.IndexIsAConcatenation : Prop :=
  ∀ v w i : Nat,
    index v w i = (i * 2 ^ v ||| group v w i) ∧ index v w i / 2 ^ v = i ∧ index v w i % 2 ^ v = group v w i

/-- R145: the `k` indices lie in disjoint ranges below `m(v)`, one each, strictly rising. -/
def Obligations.IndicesLieInDisjointRanges : Prop :=
  ∀ (id : Identifier) (v : Nat), 2 ≤ v → v ≤ 64 →
    (derive v id).map (fun x => x / 2 ^ v) = List.range (128 / v)
    ∧ (derive v id).Pairwise (· < ·)
    ∧ ∀ i x, (derive v id)[i]? = some x →
      i * 2 ^ v ≤ x ∧ x < (i + 1) * 2 ^ v ∧ (i + 1) * 2 ^ v ≤ bitCount v

/-- R174, R140: two identifiers derive the same indices exactly when they agree on every position that some group reads,
after the substitution; the tail positions are read by none. -/
def Obligations.EqualIndicesExactlyWhenReadBitsAgree : Prop :=
  ∀ (x y : Identifier) (v : Nat), 2 ≤ v → v ≤ 64 →
    (derive v x = derive v y ↔
      ∀ p, p < 128 / v * v → stringBit (substitutedByte x) p = stringBit (substitutedByte y) p)

/-- R148: DERIVE in every case, and its corner cases. It changes nothing. -/
def Obligations.DeriveReturnsTheIndices : Prop :=
  ∀ (s : State) (n : Nat) (id : Identifier),
    (s.cfg = false → exec (.derive n id) s = .next (answered s 4#4 false []))
    ∧ (s.cfg = true → n ≠ 16 → exec (.derive n id) s = .next (answered s 2#4 false []))
    ∧ (s.cfg = true →
      let v := s.v.toNat
      exec (.derive 16 id) s = .next (answered s 0#4 false
        ((List.range (128 / v)).map fun i =>
          BitVec.ofNat 128 (bitString id / 2 ^ (128 - (i + 1) * v) % 2 ^ v + i * 2 ^ v))))
    ∧ (Inv s → s.cfg = true →
      let v := s.v.toNat
      128 / v ≤ 64
      ∧ exec (.derive 16 0#128) s
        = .next (answered s 0#4 false ((List.range (128 / v)).map fun i => BitVec.ofNat 128 (i * 2 ^ v)))
      ∧ exec (.derive 16 (BitVec.allOnes 128)) s
        = .next (answered s 0#4 false ((List.range (128 / v)).map fun i => BitVec.ofNat 128 ((i + 1) * 2 ^ v - 1))))
    ∧ ∀ id' : Identifier, id &&& 0xffffffffffff0fff3fffffffffffffff#128 = id' &&& 0xffffffffffff0fff3fffffffffffffff#128 →
      exec (.derive n id) s = exec (.derive n id') s

/-! ### The segment selector and the bit store -/

/-- R44: `Locate` is injective, and onto the cells of the store, with the stated inverse. -/
def Obligations.LocateIsABijection : Prop :=
  ∀ mss v : Nat, 1 ≤ mss → 2 ≤ v → v ≤ 64 →
    (∀ idx, 8 * ((locate mss idx).segment * mss + (locate mss idx).offset) + (locate mss idx).bit = idx)
    ∧ (∀ idx idx', locate mss idx = locate mss idx' → idx = idx')
    ∧ ∀ g o b, g < segCount mss v → o < segLen mss v g → b < 8 →
      8 * (g * mss + o) + b < bitCount v
      ∧ locate mss (8 * (g * mss + o) + b) = { segment := g, offset := o, bit := b }

/-- R43: every bit index of the store names an existing cell. -/
def Obligations.LocateStaysInTheStore : Prop :=
  ∀ mss v idx : Nat, 1 ≤ mss → 2 ≤ v → v ≤ 64 → idx < bitCount v →
    (locate mss idx).segment < segCount mss v
    ∧ (locate mss idx).offset < segLen mss v (locate mss idx).segment
    ∧ (locate mss idx).bit < 8

/-- R48: with a power-of-two segment size the selector is three adjacent bit fields. -/
def Obligations.PowerOfTwoSelectorIsWiring : Prop :=
  ∀ p idx : Nat,
    locate (2 ^ p) idx = { segment := idx / 2 ^ (p + 3), offset := idx / 8 % 2 ^ p, bit := idx % 8 }

/-- R46, R47: a byte written is the byte read there, every other cell reads as before, and only the store changes. -/
def Obligations.MemoryReadAfterWrite : Prop :=
  ∀ (s : State) (g o : Nat) (x : Byte), Inv s → s.cfg = true →
    g < segCount s.config.maxSegmentSize s.v.toNat → o < segLen s.config.maxSegmentSize s.v.toNat g →
    ∃ t, memWrite s g o x = some t ∧ Inv t ∧ t = { s with seg := t.seg }
      ∧ memRead t g o = some x
      ∧ ∀ g' o', (g', o') ≠ (g, o) → memRead t g' o' = memRead s g' o'

/-- R164, R163: `BitSet` sets the bit of its index, keeps every other bit, and writes the byte it read when the bit was
set already. -/
def Obligations.BitSetSetsOneBit : Prop :=
  ∀ (s : State) (idx : Nat), Inv s → s.cfg = true → idx < bitCount s.v.toNat →
    ∃ t, bitSet s idx = some t ∧ Inv t ∧ t = { s with seg := t.seg }
      ∧ bitTest t idx = some 1
      ∧ (∀ j, j < bitCount s.v.toNat → j ≠ idx → bitTest t j = bitTest s j)
      ∧ (bitTest s idx = some 1 → t = s)

/-- R61: for `v >= 3` each group owns its whole bytes; at `v = 2` groups `2j` and `2j + 1` share byte `j`, low nibble and
high nibble. -/
def Obligations.GroupsAndBytes : Prop :=
  ∀ (id : Identifier) (v i x : Nat), 2 ≤ v → v ≤ 64 → (derive v id)[i]? = some x →
    (3 ≤ v → i * 2 ^ v / 8 ≤ x / 8 ∧ x / 8 ≤ (i + 1) * 2 ^ v / 8 - 1
      ∧ ∀ j y, (derive v id)[j]? = some y → j ≠ i → y / 8 ≠ x / 8)
    ∧ (v = 2 → x / 8 = i / 2 ∧ x % 8 / 4 = i % 2)

/-! ### ADD and HAS -/

/-- R165, R168: ADD in every case. A success changes the store alone: every byte is its old value with the masks of the
derived indices that lie in it set, so a byte in which none lies is unchanged; at most one lies in a byte for `v >= 3` and
at most two at `v = 2`. -/
def Obligations.AddSetsTheDerivedBits : Prop :=
  ∀ (s : State) (n : Nat) (id : Identifier),
    (s.cfg = false → exec (.add n id) s = .next (answered s 4#4 false []))
    ∧ (s.cfg = true → n ≠ 16 → exec (.add n id) s = .next (answered s 2#4 false []))
    ∧ (Inv s → s.cfg = true → ∃ t,
      exec (.add 16 id) s = .next t
      ∧ t = { s with seg := t.seg, responses := s.responses ++ [{ status := 0#4, flag := false, data := [] }] }
      ∧ (∀ a, flatByte t a = (flatByte s a).map (orMasksAt a (derive s.v.toNat id)))
      ∧ ∀ a, ((derive s.v.toNat id).filter fun i => decide (i / 8 = a)).length
          ≤ if s.v.toNat = 2 then 2 else 1)

/-- The frame of ADD: the byte stored to for an index is the one the segment selector gives, and every other byte of the
store, and everything but the store, is unchanged (R30, R42, R165). -/
def Obligations.AddFrame : Prop :=
  ∀ (s t : State) (id : Identifier), Inv s → exec (.add 16 id) s = .next t →
    t.config = s.config ∧ t.cfg = s.cfg ∧ t.v = s.v ∧ t.inputs = s.inputs
    ∧ ∀ a, (∀ idx ∈ derive s.v.toNat id,
        flatAddress s.config.maxSegmentSize (locate s.config.maxSegmentSize idx).segment
          (locate s.config.maxSegmentSize idx).offset ≠ a) →
      flatByte t a = flatByte s a

/-- R169, R170: HAS in every case. The flag is true exactly when every derived bit is set, and nothing changes. -/
def Obligations.HasTestsTheDerivedBits : Prop :=
  ∀ (s : State) (n : Nat) (id : Identifier),
    (s.cfg = false → exec (.has n id) s = .next (answered s 4#4 false []))
    ∧ (s.cfg = true → n ≠ 16 → exec (.has n id) s = .next (answered s 2#4 false []))
    ∧ (Inv s → s.cfg = true →
      exec (.has 16 id) s
        = .next (answered s 0#4 (decide (∀ idx ∈ derive s.v.toNat id, storeBit s idx = some 1)) []))
    ∧ (Inv s → ∀ v, Empty v s → exec (.has 16 id) s = .next (answered s 0#4 false []))

/-- R171: no false negatives. After an ADD that succeeds, and any inputs among which there is no reset and no successful
INIT, HAS of the same identifier answers true. -/
def Obligations.NoFalseNegatives : Prop :=
  ∀ (s : State) (x : Identifier) (between : List HostInput), Inv s → s.cfg = true →
    s.inputs = issue (.add 16 x) :: (between ++ [issue (.has 16 x)]) →
    (∀ input ∈ between, keepsFilter s.config input = true) →
    ∃ t, Host.Core.run core (between.length + 2) s = .next t
      ∧ t.responses.getLast? = some { status := 0#4, flag := true, data := [] }

/-- R167: adding an identifier twice is adding it once, and the order of two ADDs does not matter to the store. -/
def Obligations.AddIsIdempotentAndCommutes : Prop :=
  ∀ (s : State) (x y : Identifier), Inv s → s.cfg = true →
    (∀ t u, exec (.add 16 x) s = .next t → exec (.add 16 x) t = .next u → u.seg = t.seg)
    ∧ ∀ t u t' u', exec (.add 16 x) s = .next t → exec (.add 16 y) t = .next u →
      exec (.add 16 y) s = .next t' → exec (.add 16 x) t' = .next u' → u.seg = u'.seg

/-- R167: the store after any sequence of successful ADDs is the OR of their masks over the store before; a bit is set
exactly when it was or when one of the identifiers derives it, so neither their order nor a repetition matters. -/
def Obligations.AddSequenceIsTheOrOfItsMasks : Prop :=
  ∀ (s : State) (ids : List Identifier), Inv s → s.cfg = true →
    s.inputs = ids.map (fun x => issue (.add 16 x)) →
    ∃ t, Host.Core.run core ids.length s = .next t
      ∧ t.cfg = true ∧ t.v = s.v
      ∧ (∀ a, flatByte t a = (flatByte s a).map (orMasksAt a (ids.flatMap (derive s.v.toNat))))
      ∧ ∀ idx, storeBit t idx = some 1 ↔ storeBit s idx = some 1 ∨ ∃ x ∈ ids, idx ∈ derive s.v.toNat x

/-- R175: between one successful INIT and the next INIT or reset a bit that is 1 stays 1, at every step. -/
def Obligations.SetBitsStaySet : Prop :=
  ∀ (s t : State) (idx : Nat), Inv s → (∀ input ∈ s.inputs.head?, keepsFilter s.config input = true) →
    step s = .next t → storeBit s idx = some 1 → storeBit t idx = some 1

/-- R162: the segmentation is invisible to ADD and HAS: a unit that differs only in `MAX_SEGMENT_SIZE` gives the same
response and has the same flat store after. -/
def Obligations.SegmentSizeIsInvisibleToAddAndHas : Prop :=
  ∀ (s t : State) (mss : Nat) (i : Instr), Inv s → 1 ≤ mss → mss < 2 ^ 64 →
    (∃ n id, i = .add n id ∨ i = .has n id) → exec i s = .next t →
    exec i { s with config := { s.config with maxSegmentSize := mss } }
      = .next { t with config := { t.config with maxSegmentSize := mss } }

/-! ### The diagnostic family and the errors -/

/-- R191, R29: RDCSR in every case. Nothing changes. -/
def Obligations.RdcsrReadsTheRegisterMap : Prop :=
  ∀ s : State,
    let v := s.v.toNat
    let size := 128 / v * 2 ^ v / 8
    let cfg := fun x : Nat => BitVec.ofNat 128 (if s.cfg then x else 0)
    exec (.rdcsr 0) s = .next (answered s 0#4 false [cfg 1])
    ∧ exec (.rdcsr 1) s = .next (answered s 0#4 false [cfg v])
    ∧ exec (.rdcsr 2) s = .next (answered s 0#4 false [cfg (128 / v)])
    ∧ exec (.rdcsr 3) s = .next (answered s 0#4 false [cfg (128 / v * 2 ^ v)])
    ∧ exec (.rdcsr 4) s = .next (answered s 0#4 false [cfg size])
    ∧ exec (.rdcsr 5) s = .next (answered s 0#4 false
        [cfg ((size + s.config.maxSegmentSize - 1) / s.config.maxSegmentSize)])
    ∧ exec (.rdcsr 6) s = .next (answered s 0#4 false [BitVec.ofNat 128 s.config.maxSegmentSize])
    ∧ exec (.rdcsr 7) s = .next (answered s 0#4 false [BitVec.ofNat 128 s.config.vMax])
    ∧ (∀ n, 7 < n → exec (.rdcsr n) s = .next (answered s 6#4 false []))
    ∧ ∀ cw : CommandWord, opOf cw = 0x06#8 → auxOf cw ≠ 0#8 ∨ cwField cw 8 120 ≠ 0#120 →
      runCommand cw s = .next (answered s 3#4 false [])

/-- R192: RDLEN in every case; over all segments it sums to `BUFSZ`. Nothing changes. -/
def Obligations.RdlenReadsASegmentLength : Prop :=
  ∀ (s : State) (g : Nat),
    let v := s.v.toNat
    let mss := s.config.maxSegmentSize
    (s.cfg = false → exec (.rdlen g) s = .next (answered s 4#4 false []))
    ∧ (s.cfg = true → segCount mss v ≤ g → exec (.rdlen g) s = .next (answered s 6#4 false []))
    ∧ (s.cfg = true → g < segCount mss v →
      exec (.rdlen g) s = .next (answered s 0#4 false [BitVec.ofNat 128 (segLen mss v g)]))
    ∧ (Inv s → s.cfg = true → ((List.range (segCount mss v)).map (segLen mss v)).sum = readCsr s .bufsz)

/-- R193: RDBYTE in every case. Nothing changes; the byte is the one at flat address `SEGI * MSS + OFF`, and holds bit
indices `8 * (SEGI * MSS + OFF) + b` at weights `2^b`. -/
def Obligations.RdbyteReadsAByte : Prop :=
  ∀ (s : State) (g o : Nat),
    let v := s.v.toNat
    let mss := s.config.maxSegmentSize
    (s.cfg = false → exec (.rdbyte g o) s = .next (answered s 4#4 false []))
    ∧ (s.cfg = true → segCount mss v ≤ g → exec (.rdbyte g o) s = .next (answered s 6#4 false []))
    ∧ (s.cfg = true → g < segCount mss v → segLen mss v g ≤ o →
      exec (.rdbyte g o) s = .next (answered s 6#4 false []))
    ∧ (Inv s → s.cfg = true → g < segCount mss v → o < segLen mss v g →
      ∃ x, flatByte s (g * mss + o) = some x
        ∧ exec (.rdbyte g o) s = .next (answered s 0#4 false [BitVec.ofNat 128 x.toNat])
        ∧ (∀ b, b < 8 → storeBit s (8 * (g * mss + o) + b) = some (x.toNat / 2 ^ b % 2))
        ∧ (Empty v s → x = 0#8))

/-- R194: the host rebuilds the whole store from `NSEG`, RDLEN and RDBYTE. -/
def Obligations.DiagnosticViewIsTheStore : Prop :=
  ∀ s : State, Inv s → s.cfg = true → ∃ view, segView s = some view
    ∧ exec (.rdcsr 5) s = .next (answered s 0#4 false [BitVec.ofNat 128 view.length])
    ∧ (view.map List.length).sum = bufferSize s.v.toNat
    ∧ ∀ g seg, view[g]? = some seg →
      exec (.rdlen g) s = .next (answered s 0#4 false [BitVec.ofNat 128 seg.length])
      ∧ ∀ o x, seg[o]? = some x →
        exec (.rdbyte g o) s = .next (answered s 0#4 false [BitVec.ofNat 128 x.toNat])

/-- R214: with no filter the five commands that need one raise `NotConfigured`, whatever their operands, and change
nothing else; INIT, DESC and RDCSR never raise it. -/
def Obligations.NotConfiguredComesFirst : Prop :=
  (∀ s : State, s.cfg = false → ∀ (n g o : Nat) (id : Identifier),
    ∀ i ∈ [Instr.add n id, .has n id, .derive n id, .rdlen g, .rdbyte g o],
      exec i s = .next (answered s 4#4 false []))
  ∧ ∀ (s t : State) (i : Instr), (∃ var, i = .init var ∨ i = .desc var) ∨ (∃ n, i = .rdcsr n) →
    exec i s = .next t → ∃ r, t.responses = s.responses ++ [r] ∧ r.status ≠ 4#4

/-- R87: a response as bytes, and the bytes determine the response. -/
def Obligations.ResponseAsBytes : Prop :=
  (∀ r : Response, r.data.length ≤ 64 →
    (responseBytes r).length = 2 + 16 * r.data.length
    ∧ (responseBytes r)[0]?.map BitVec.toNat = some (16 * r.status.toNat + r.flag.toNat)
    ∧ (responseBytes r)[1]?.map BitVec.toNat = some r.data.length
    ∧ ∀ i b, r.data[i]? = some b → ∀ j, j < 16 →
      (responseBytes r)[2 + 16 * i + j]? = some (b.extractLsb' (120 - 8 * j) 8))
  ∧ ∀ r r' : Response, r.data.length ≤ 64 → r'.data.length ≤ 64 → responseBytes r = responseBytes r' → r = r'
end

