-- ==== Sys2Proof/Laws/Encoding.lean ====
section
/-! SUPPORT. The fields of a packed command word (30_encoding.md R70), and the bytes of a word put together again (R71). -/

namespace Sys2Proof

theorem getLsbD_packWord (op aux : Byte) (arg : BitVec 128) (i : Nat) :
    (packWord op aux arg).getLsbD i =
      if i < 128 then arg.getLsbD i
      else if i < 136 then aux.getLsbD (i - 128) else op.getLsbD (i - 136) := by
  show (op ++ aux ++ arg).getLsbD i = _
  rw [BitVec.getLsbD_append, BitVec.getLsbD_append]
  by_cases h1 : i < 128
  · simp [h1]
  · by_cases h2 : i < 136
    · simp [h1, h2, show i - 128 < 8 by omega]
    · simp [h1, h2, show ¬i - 128 < 8 by omega, show i - 128 - 8 = i - 136 by omega]

@[simp] theorem opOf_packWord (op aux : Byte) (arg : BitVec 128) : opOf (packWord op aux arg) = op := by
  apply BitVec.eq_of_getLsbD_eq
  intro i hi
  simp [opOf, cwField, getLsbD_packWord, hi, show ¬136 + i < 128 by omega]

@[simp] theorem auxOf_packWord (op aux : Byte) (arg : BitVec 128) : auxOf (packWord op aux arg) = aux := by
  apply BitVec.eq_of_getLsbD_eq
  intro i hi
  simp [auxOf, cwField, getLsbD_packWord, hi, show 128 + i < 136 by omega]

/-- A field inside `ARG` is a field of the packed argument. -/
theorem cwField_packWord (op aux : Byte) (arg : BitVec 128) {lo len : Nat} (h : lo + len ≤ 128) :
    cwField (packWord op aux arg) lo len = arg.extractLsb' lo len := by
  apply BitVec.eq_of_getLsbD_eq
  intro i hi
  simp [cwField, getLsbD_packWord, hi, show lo + i < 128 by omega]

@[simp] theorem argOf_packWord (op aux : Byte) (arg : BitVec 128) : argOf (packWord op aux arg) = arg := by
  rw [argOf, cwField_packWord _ _ _ (by omega), BitVec.extractLsb'_eq_self]

/-- A command word is its three fields and nothing else (R70). -/
theorem packWord_fields (cw : CommandWord) : packWord (opOf cw) (auxOf cw) (argOf cw) = cw := by
  apply BitVec.eq_of_getLsbD_eq
  intro i hi
  rw [getLsbD_packWord]
  by_cases h1 : i < 128
  · simp [h1, argOf, cwField]
  · by_cases h2 : i < 136
    · simp [h1, h2, auxOf, cwField, show i - 128 < 8 by omega, show 128 + (i - 128) = i by omega]
    · simp [h1, h2, opOf, cwField, show i - 136 < 8 by omega, show 136 + (i - 136) = i by omega]

/-- Masking works field by field. -/
theorem packWord_and (op aux op' aux' : Byte) (arg arg' : BitVec 128) :
    packWord op aux arg &&& packWord op' aux' arg' = packWord (op &&& op') (aux &&& aux') (arg &&& arg') := by
  apply BitVec.eq_of_getLsbD_eq
  intro i _
  rw [BitVec.getLsbD_and, getLsbD_packWord, getLsbD_packWord, getLsbD_packWord]
  split
  · rw [BitVec.getLsbD_and]
  · split <;> rw [BitVec.getLsbD_and]

/-- Packing loses nothing. -/
theorem packWord_inj {op aux op' aux' : Byte} {arg arg' : BitVec 128} :
    packWord op aux arg = packWord op' aux' arg' ↔ op = op' ∧ aux = aux' ∧ arg = arg' := by
  constructor
  · intro h
    exact ⟨by simpa using congrArg opOf h, by simpa using congrArg auxOf h, by simpa using congrArg argOf h⟩
  · rintro ⟨rfl, rfl, rfl⟩
    rfl

end Sys2Proof
end

