-- ==== Sys2Proof/Laws/Memory.lean ====
section
/-! SUPPORT. The laws of the byte list: a read after a write, and that every operation keeps the canonical form. -/

namespace Sys2Proof.Machine.Memory

@[simp] theorem read_nil (a : Nat) : Memory.read [] a = unlisted := rfl

theorem read_cons (b a : Nat) (y : Byte) (rest : Memory) :
    Memory.read ((b, y) :: rest) a = if a = b then y else Memory.read rest a := rfl

@[simp] theorem wfFrom_nil (low : Option Nat) : wfFrom low [] = true := by
  cases low <;> rfl

theorem wfFrom_some_cons (l a : Nat) (x : Byte) (rest : Memory) :
    wfFrom (some l) ((a, x) :: rest) = true ↔ l < a ∧ x ≠ unlisted ∧ wfFrom (some a) rest = true := by
  simp [wfFrom, and_assoc]

theorem wfFrom_none_cons (a : Nat) (x : Byte) (rest : Memory) :
    wfFrom none ((a, x) :: rest) = true ↔ x ≠ unlisted ∧ wfFrom (some a) rest = true := by
  simp [wfFrom]

/-- A canonical list above an address is canonical above any lower one. -/
theorem wfFrom_weaken {l l' : Nat} {m : Memory} (hl : l ≤ l') (h : wfFrom (some l') m = true) :
    wfFrom (some l) m = true := by
  cases m with
  | nil => simp
  | cons c rest =>
    obtain ⟨a, x⟩ := c
    rw [wfFrom_some_cons] at h ⊢
    exact ⟨by omega, h.2⟩

theorem wf_of_wfFrom {l : Nat} {m : Memory} (h : wfFrom (some l) m = true) : wf m = true := by
  cases m with
  | nil => simp [wf]
  | cons c rest =>
    obtain ⟨a, x⟩ := c
    rw [wfFrom_some_cons] at h
    rw [wf, wfFrom_none_cons]
    exact h.2

/-- What lies at or below the bound of a canonical list is not listed. -/
theorem read_of_le {l : Nat} {m : Memory} (h : wfFrom (some l) m = true) {a : Nat} (ha : a ≤ l) :
    Memory.read m a = unlisted := by
  induction m generalizing l with
  | nil => rfl
  | cons c rest ih =>
    obtain ⟨b, y⟩ := c
    rw [wfFrom_some_cons] at h
    rw [read_cons, if_neg (by omega), ih h.2.2 (by omega)]

theorem read_place {a : Nat} {x : Byte} {rest : Memory} (h : wfFrom (some a) rest = true) (b : Nat) :
    Memory.read (place a x rest) b = if b = a then x else Memory.read rest b := by
  unfold place
  split
  · rename_i hx
    split
    · rename_i hb
      rw [hb, hx, read_of_le h (Nat.le_refl a)]
    · rfl
  · rw [read_cons]

theorem wfFrom_place {l a : Nat} {x : Byte} {rest : Memory} (hl : l < a) (h : wfFrom (some a) rest = true) :
    wfFrom (some l) (place a x rest) = true := by
  unfold place
  split
  · exact wfFrom_weaken (by omega) h
  · rw [wfFrom_some_cons]
    exact ⟨hl, ‹_›, h⟩

theorem wfFrom_write {l a : Nat} {x : Byte} {m : Memory} (hl : l < a) (h : wfFrom (some l) m = true) :
    wfFrom (some l) (Memory.write m a x) = true := by
  induction m generalizing l with
  | nil => exact wfFrom_place hl (by simp)
  | cons c rest ih =>
    obtain ⟨b, y⟩ := c
    rw [wfFrom_some_cons] at h
    rw [Memory.write]
    split
    · exact wfFrom_place hl ((wfFrom_some_cons ..).2 ⟨‹_›, h.2⟩)
    · split
      · rename_i hab
        exact wfFrom_place hl (hab ▸ h.2.2)
      · rw [wfFrom_some_cons]
        exact ⟨h.1, h.2.1, ih (by omega) h.2.2⟩

/-- A write keeps the canonical form. -/
theorem wf_write {a : Nat} {x : Byte} {m : Memory} (h : wf m = true) : wf (Memory.write m a x) = true := by
  cases m with
  | nil =>
    rw [Memory.write, place]
    split
    · simp [wf]
    · rw [wf, wfFrom_none_cons]
      exact ⟨‹_›, by simp⟩
  | cons c rest =>
    obtain ⟨b, y⟩ := c
    rw [wf, wfFrom_none_cons] at h
    rw [Memory.write]
    split
    · rw [place]
      split
      · exact (wfFrom_none_cons ..).2 h
      · rw [wf, wfFrom_none_cons, wfFrom_some_cons]
        exact ⟨‹_›, ‹_›, h⟩
    · split
      · rename_i hab
        rw [place]
        split
        · exact wf_of_wfFrom h.2
        · rw [wf, wfFrom_none_cons, hab]
          exact ⟨‹_›, h.2⟩
      · rw [wf, wfFrom_none_cons]
        exact ⟨h.1, wfFrom_write (by omega) h.2⟩

/-- The store just after INIT is in canonical form. -/
@[simp] theorem wf_zeroFilled : wf zeroFilled = true := rfl

@[simp] theorem read_zeroFilled (a : Nat) : Memory.read zeroFilled a = unlisted := rfl

theorem read_write_from {l a : Nat} {x : Byte} {m : Memory} (hl : l < a) (h : wfFrom (some l) m = true) (b : Nat) :
    Memory.read (Memory.write m a x) b = if b = a then x else Memory.read m b := by
  induction m generalizing l with
  | nil => exact read_place (by simp) b
  | cons c rest ih =>
    obtain ⟨c, y⟩ := c
    rw [wfFrom_some_cons] at h
    rw [Memory.write]
    split
    · exact read_place ((wfFrom_some_cons ..).2 ⟨‹_›, h.2⟩) b
    · split
      · rename_i hab
        subst hab
        rw [read_place h.2.2, read_cons]
        split <;> rfl
      · rw [read_cons, read_cons, ih (by omega) h.2.2]
        split
        · rw [if_neg (by omega)]
        · rfl

/-- A read after a write: the byte written at its address, and every other address as before. -/
theorem read_write {m : Memory} (h : wf m = true) (a b : Nat) (x : Byte) :
    Memory.read (Memory.write m a x) b = if b = a then x else Memory.read m b := by
  cases m with
  | nil => exact read_place (by simp) b
  | cons c rest =>
    obtain ⟨c, y⟩ := c
    rw [wf, wfFrom_none_cons] at h
    rw [Memory.write]
    split
    · exact read_place ((wfFrom_some_cons ..).2 ⟨‹_›, h⟩) b
    · split
      · rename_i hab
        subst hab
        rw [read_place h.2, read_cons]
        split <;> rfl
      · rw [read_cons, read_cons, read_write_from (by omega) h.2]
        split
        · rw [if_neg (by omega)]
        · rfl

theorem below_cons (n b : Nat) (y : Byte) (rest : Memory) :
    below n ((b, y) :: rest) = true ↔ b < n ∧ below n rest = true := by
  simp [below]

@[simp] theorem below_nil (n : Nat) : below n [] = true := rfl

theorem below_place {n a : Nat} {x : Byte} {rest : Memory} (ha : a < n) (h : below n rest = true) :
    below n (place a x rest) = true := by
  unfold place
  split
  · exact h
  · exact (below_cons ..).2 ⟨ha, h⟩

/-- A write inside the bound keeps the list inside it. -/
theorem below_write {n a : Nat} {x : Byte} {m : Memory} (ha : a < n) (h : below n m = true) :
    below n (Memory.write m a x) = true := by
  induction m with
  | nil => exact below_place ha rfl
  | cons c rest ih =>
    obtain ⟨b, y⟩ := c
    rw [Memory.write]
    split
    · exact below_place ha h
    · rw [below_cons] at h
      split
      · exact below_place ha h.2
      · exact (below_cons ..).2 ⟨h.1, ih h.2⟩

/-- Nothing is listed outside the bound. -/
theorem read_of_below {n a : Nat} {m : Memory} (h : below n m = true) (ha : n ≤ a) :
    Memory.read m a = unlisted := by
  induction m with
  | nil => rfl
  | cons c rest ih =>
    obtain ⟨b, y⟩ := c
    rw [below_cons] at h
    rw [read_cons, if_neg (by omega), ih h.2]

theorem ext_from {l : Nat} {m m' : Memory} (h : wfFrom (some l) m = true) (h' : wfFrom (some l) m' = true)
    (hr : ∀ a, Memory.read m a = Memory.read m' a) : m = m' := by
  induction m generalizing l m' with
  | nil =>
    cases m' with
    | nil => rfl
    | cons c' rest' =>
      obtain ⟨b, y⟩ := c'
      rw [wfFrom_some_cons] at h'
      have := hr b
      rw [read_cons, if_pos rfl] at this
      exact absurd this.symm h'.2.1
  | cons c rest ih =>
    obtain ⟨a, x⟩ := c
    rw [wfFrom_some_cons] at h
    cases m' with
    | nil =>
      have := hr a
      rw [read_cons, if_pos rfl] at this
      exact absurd this h.2.1
    | cons c' rest' =>
      obtain ⟨b, y⟩ := c'
      rw [wfFrom_some_cons] at h'
      have hab : a = b := by
        rcases Nat.lt_trichotomy a b with hlt | heq | hgt
        · have := hr a
          rw [read_cons, if_pos rfl, read_cons, if_neg (by omega), read_of_le h'.2.2 (by omega)] at this
          exact absurd this h.2.1
        · exact heq
        · have := hr b
          rw [read_cons, if_neg (by omega), read_of_le h.2.2 (by omega), read_cons, if_pos rfl] at this
          exact absurd this.symm h'.2.1
      subst hab
      have hxy : x = y := by
        have := hr a
        rwa [read_cons, if_pos rfl, read_cons, if_pos rfl] at this
      subst hxy
      have hrest : rest = rest' := by
        refine ih h.2.2 h'.2.2 fun d => ?_
        have := hr d
        rw [read_cons, read_cons] at this
        by_cases hd : d = a
        · rw [hd, read_of_le h.2.2 (Nat.le_refl a), read_of_le h'.2.2 (Nat.le_refl a)]
        · rwa [if_neg hd, if_neg hd] at this
      rw [hrest]

/-- Two stores in canonical form that read alike everywhere are equal data. -/
theorem ext {m m' : Memory} (h : wf m = true) (h' : wf m' = true)
    (hr : ∀ a, Memory.read m a = Memory.read m' a) : m = m' := by
  cases m with
  | nil =>
    cases m' with
    | nil => rfl
    | cons c' rest' =>
      obtain ⟨b, y⟩ := c'
      rw [wf, wfFrom_none_cons] at h'
      have := hr b
      rw [read_cons, if_pos rfl] at this
      exact absurd this.symm h'.1
  | cons c rest =>
    obtain ⟨a, x⟩ := c
    cases m' with
    | nil =>
      rw [wf, wfFrom_none_cons] at h
      have := hr a
      rw [read_cons, if_pos rfl] at this
      exact absurd this h.1
    | cons c' rest' =>
      obtain ⟨b, y⟩ := c'
      rw [wf, wfFrom_none_cons] at h h'
      have hab : a = b := by
        rcases Nat.lt_trichotomy a b with hlt | heq | hgt
        · have := hr a
          rw [read_cons, if_pos rfl, read_cons, if_neg (by omega), read_of_le h'.2 (by omega)] at this
          exact absurd this h.1
        · exact heq
        · have := hr b
          rw [read_cons, if_neg (by omega), read_of_le h.2 (by omega), read_cons, if_pos rfl] at this
          exact absurd this.symm h'.1
      subst hab
      have hxy : x = y := by
        have := hr a
        rwa [read_cons, if_pos rfl, read_cons, if_pos rfl] at this
      subst hxy
      have hrest : rest = rest' := by
        refine ext_from h.2 h'.2 fun d => ?_
        have := hr d
        rw [read_cons, read_cons] at this
        by_cases hd : d = a
        · rw [hd, read_of_le h.2 (Nat.le_refl a), read_of_le h'.2 (Nat.le_refl a)]
        · rwa [if_neg hd, if_neg hd] at this
      rw [hrest]

end Sys2Proof.Machine.Memory
end

