-- ==== Sys2Proof/Laws/State.lean ====
section
/-! SUPPORT. One lemma per field per update of `State`, each true by `rfl`, so that no later proof unfolds a record
update. -/

namespace Sys2Proof.Machine

section answer
variable (s : State) (r : Response)
@[simp] theorem State.answer_config : (s.answer r).config = s.config := rfl
@[simp] theorem State.answer_cfg : (s.answer r).cfg = s.cfg := rfl
@[simp] theorem State.answer_v : (s.answer r).v = s.v := rfl
@[simp] theorem State.answer_seg : (s.answer r).seg = s.seg := rfl
@[simp] theorem State.answer_inputs : (s.answer r).inputs = s.inputs := rfl
@[simp] theorem State.answer_responses : (s.answer r).responses = s.responses ++ [r] := rfl
@[simp] theorem State.answer_mss : (s.answer r).mss = s.mss := rfl
@[simp] theorem State.answer_variant : (s.answer r).variant = s.variant := rfl
end answer

section withInputs
variable (s : State) (rest : List HostInput)
@[simp] theorem State.withInputs_config : (s.withInputs rest).config = s.config := rfl
@[simp] theorem State.withInputs_cfg : (s.withInputs rest).cfg = s.cfg := rfl
@[simp] theorem State.withInputs_v : (s.withInputs rest).v = s.v := rfl
@[simp] theorem State.withInputs_seg : (s.withInputs rest).seg = s.seg := rfl
@[simp] theorem State.withInputs_inputs : (s.withInputs rest).inputs = rest := rfl
@[simp] theorem State.withInputs_responses : (s.withInputs rest).responses = s.responses := rfl
@[simp] theorem State.withInputs_mss : (s.withInputs rest).mss = s.mss := rfl
@[simp] theorem State.withInputs_variant : (s.withInputs rest).variant = s.variant := rfl
end withInputs

section withSeg
variable (s : State) (m : Memory)
@[simp] theorem State.withSeg_config : (s.withSeg m).config = s.config := rfl
@[simp] theorem State.withSeg_cfg : (s.withSeg m).cfg = s.cfg := rfl
@[simp] theorem State.withSeg_v : (s.withSeg m).v = s.v := rfl
@[simp] theorem State.withSeg_seg : (s.withSeg m).seg = some m := rfl
@[simp] theorem State.withSeg_inputs : (s.withSeg m).inputs = s.inputs := rfl
@[simp] theorem State.withSeg_responses : (s.withSeg m).responses = s.responses := rfl
@[simp] theorem State.withSeg_mss : (s.withSeg m).mss = s.mss := rfl
@[simp] theorem State.withSeg_variant : (s.withSeg m).variant = s.variant := rfl
@[simp] theorem State.withSeg_withSeg (m' : Memory) : (s.withSeg m).withSeg m' = s.withSeg m' := rfl
end withSeg

section constructFilter
variable (v : Nat) (s : State)
@[simp] theorem constructFilter_config : (constructFilter v s).config = s.config := rfl
@[simp] theorem constructFilter_cfg : (constructFilter v s).cfg = true := rfl
@[simp] theorem constructFilter_v : (constructFilter v s).v = BitVec.ofNat 7 v := rfl
@[simp] theorem constructFilter_seg : (constructFilter v s).seg = some Memory.zeroFilled := rfl
@[simp] theorem constructFilter_inputs : (constructFilter v s).inputs = s.inputs := rfl
@[simp] theorem constructFilter_responses : (constructFilter v s).responses = s.responses := rfl
@[simp] theorem constructFilter_mss : (constructFilter v s).mss = s.mss := rfl

/-- `V` holds the variant itself: a supported variant fits 7 bits (10_state.md R22). -/
theorem constructFilter_variant (hv : v ≤ 64) : (constructFilter v s).variant = v := by
  show (BitVec.ofNat 7 v).toNat = v
  rw [BitVec.toNat_ofNat]
  exact Nat.mod_eq_of_lt (by omega)
end constructFilter

section resetUnit
variable (s : State)
@[simp] theorem resetUnit_config : (resetUnit s).config = s.config := rfl
@[simp] theorem resetUnit_cfg : (resetUnit s).cfg = false := rfl
@[simp] theorem resetUnit_v : (resetUnit s).v = 0#7 := rfl
@[simp] theorem resetUnit_seg : (resetUnit s).seg = none := rfl
@[simp] theorem resetUnit_inputs : (resetUnit s).inputs = s.inputs := rfl
@[simp] theorem resetUnit_responses : (resetUnit s).responses = s.responses := rfl
end resetUnit

section withFetchWord
variable (s : State) (nbits w : Nat)
@[simp] theorem State.withFetchWord_config : (s.withFetchWord nbits w).config = s.config := rfl
@[simp] theorem State.withFetchWord_cfg : (s.withFetchWord nbits w).cfg = s.cfg := rfl
@[simp] theorem State.withFetchWord_v : (s.withFetchWord nbits w).v = s.v := rfl
@[simp] theorem State.withFetchWord_seg : (s.withFetchWord nbits w).seg = s.seg := rfl
@[simp] theorem State.withFetchWord_inputs :
    (s.withFetchWord nbits w).inputs = .command (tableWord nbits w) :: s.inputs := rfl
@[simp] theorem State.withFetchWord_responses : (s.withFetchWord nbits w).responses = s.responses := rfl
end withFetchWord

section afterReset
variable (c : Config)
@[simp] theorem State.afterReset_config : (State.afterReset c).config = c := rfl
@[simp] theorem State.afterReset_cfg : (State.afterReset c).cfg = false := rfl
@[simp] theorem State.afterReset_v : (State.afterReset c).v = 0#7 := rfl
@[simp] theorem State.afterReset_seg : (State.afterReset c).seg = none := rfl
@[simp] theorem State.afterReset_inputs : (State.afterReset c).inputs = [] := rfl
@[simp] theorem State.afterReset_responses : (State.afterReset c).responses = [] := rfl
end afterReset

end Sys2Proof.Machine
end

