-- ==== Sys2Proof/Laws/Ops.lean ====
section
/-! SUPPORT. One lemma for each shared operation that says once everything it can do. -/

namespace Sys2Proof.Machine

/-! ### Answering -/

@[simp] theorem respond_eq (flag : Bool) (data : List Beat) (s : State) :
    respond flag data s = .next (s.answer (okResponse flag data)) := rfl

@[simp] theorem raise_eq (e : UnitError) (s : State) : raise e s = .next (s.answer (errorResponse e)) := rfl

/-- An error code is never the success code (60_exceptions.md R210). -/
theorem UnitError.code_ne_zero (e : UnitError) : e.code ≠ 0#4 := by cases e <;> decide

/-- Different errors have different codes (60_exceptions.md R210). -/
theorem UnitError.code_injective {e e' : UnitError} (h : e.code = e'.code) : e = e' := by
  cases e <;> cases e' <;> first | rfl | exact absurd h (by decide)

/-! ### Operand checks -/

/-- `variantOperand` accepts exactly the supported variants. -/
theorem variantOperand_eq_ok {c : Config} {var : Int} {v : Nat} :
    variantOperand c var = .ok v ↔ 2 ≤ var ∧ var ≤ c.vMax ∧ v = var.toNat := by
  unfold variantOperand
  split
  · simp; omega
  · split
    · simp; omega
    · simp [eq_comm]; omega

/-- The two errors of `variantOperand`, which exclude each other (60_exceptions.md R217). -/
theorem variantOperand_eq_error {c : Config} {var : Int} {e : UnitError} :
    variantOperand c var = .error e ↔
      (var < 2 ∧ e = .invalidVariant) ∨ (2 ≤ var ∧ (c.vMax : Int) < var ∧ e = .unsupportedVariant) := by
  unfold variantOperand
  by_cases h1 : var < 2
  · have h1' : ¬2 ≤ var := by omega
    simpa [h1, h1'] using eq_comm
  · have h1' : 2 ≤ var := by omega
    by_cases h2 : (c.vMax : Int) < var
    · simpa [h1, h1', h2] using eq_comm
    · simp [h1, h2]

theorem filterCheck_eq_ok {s : State} {u : Unit} : filterCheck s = .ok u ↔ s.cfg = true := by
  unfold filterCheck
  split <;> simp_all

theorem filterCheck_eq_error {s : State} {e : UnitError} :
    filterCheck s = .error e ↔ s.cfg = false ∧ e = .notConfigured := by
  unfold filterCheck
  cases s.cfg
  · simpa using eq_comm
  · simp

/-- `identifierOperand` accepts sixteen bytes while a filter exists, and answers `Derive(V, ID)`. -/
theorem identifierOperand_eq_ok {idLen : Nat} {id : Identifier} {s : State} {idx : List Nat} :
    identifierOperand idLen id s = .ok idx ↔ s.cfg = true ∧ idLen = 16 ∧ idx = derive s.variant id := by
  unfold identifierOperand filterCheck
  cases s.cfg <;> by_cases h : idLen = 16 <;> simp [h, eq_comm]

theorem identifierOperand_eq_error {idLen : Nat} {id : Identifier} {s : State} {e : UnitError} :
    identifierOperand idLen id s = .error e ↔
      (s.cfg = false ∧ e = .notConfigured) ∨ (s.cfg = true ∧ idLen ≠ 16 ∧ e = .invalidIdentifier) := by
  unfold identifierOperand filterCheck
  cases s.cfg <;> by_cases h : idLen = 16 <;> simp [h, eq_comm]

theorem segmentOperand_eq_ok {segi : Nat} {s : State} {len : Nat} :
    segmentOperand segi s = .ok len ↔
      s.cfg = true ∧ segi < segCount s.mss s.variant ∧ len = segLen s.mss s.variant segi := by
  unfold segmentOperand filterCheck
  cases s.cfg
  · simp
  · by_cases h : segCount s.mss s.variant ≤ segi
    · simp [h]
    · have h' : segi < segCount s.mss s.variant := by omega
      simpa [h, h'] using eq_comm

theorem segmentOperand_eq_error {segi : Nat} {s : State} {e : UnitError} :
    segmentOperand segi s = .error e ↔
      (s.cfg = false ∧ e = .notConfigured) ∨
        (s.cfg = true ∧ segCount s.mss s.variant ≤ segi ∧ e = .outOfRange) := by
  unfold segmentOperand filterCheck
  cases s.cfg <;> by_cases h : segCount s.mss s.variant ≤ segi <;> simp [h, eq_comm]

/-- `cellOperand` accepts exactly the cells of the store. -/
theorem cellOperand_eq_ok {segi off : Nat} {s : State} {u : Unit} :
    cellOperand segi off s = .ok u ↔ cellExists s segi off = true := by
  unfold cellOperand segmentOperand filterCheck cellExists
  cases s.cfg
  · simp
  · by_cases h : segCount s.mss s.variant ≤ segi
    · simp [h]
    · by_cases h' : segLen s.mss s.variant segi ≤ off
      · simp [h, h']
      · simpa [h, h'] using ⟨Nat.lt_of_not_le h, Nat.lt_of_not_le h'⟩

theorem cellOperand_eq_error {segi off : Nat} {s : State} {e : UnitError} :
    cellOperand segi off s = .error e ↔
      (s.cfg = false ∧ e = .notConfigured) ∨
        (s.cfg = true ∧ (segCount s.mss s.variant ≤ segi ∨ segLen s.mss s.variant segi ≤ off)
          ∧ e = .outOfRange) := by
  unfold cellOperand segmentOperand filterCheck
  cases s.cfg <;> by_cases h : segCount s.mss s.variant ≤ segi <;>
    by_cases h' : segLen s.mss s.variant segi ≤ off <;> simp [h, h', eq_comm]

/-! ### The bit store -/

theorem cellExists_iff {s : State} {g o : Nat} :
    cellExists s g o = true ↔
      s.cfg = true ∧ g < segCount s.mss s.variant ∧ o < segLen s.mss s.variant g := by
  simp [cellExists, and_assoc]

/-- A store write does not move the cells. -/
@[simp] theorem cellExists_withSeg (s : State) (m : Memory) (g o : Nat) :
    cellExists (s.withSeg m) g o = cellExists s g o := rfl

/-- The flat address of a located byte is the byte of the index (20_memory.md R42, 10_state.md R25). -/
@[simp] theorem flatAddress_locate (mss idx : Nat) :
    flatAddress mss (locate mss idx).segment (locate mss idx).offset = idx / 8 := by
  show idx / 8 / mss * mss + idx / 8 % mss = idx / 8
  rw [Nat.mul_comm]
  exact Nat.div_add_mod ..

@[simp] theorem locate_bit (mss idx : Nat) : (locate mss idx).bit = idx % 8 := rfl

theorem memRead_eq_some {s : State} {g o : Nat} {x : Byte} :
    memRead s g o = some x ↔
      cellExists s g o = true ∧ ∃ m, s.seg = some m ∧ x = Memory.read m (flatAddress s.mss g o) := by
  unfold memRead
  cases cellExists s g o
  · simp
  · simp only [if_true, true_and, Option.map_eq_some_iff]
    exact ⟨fun ⟨m, hm, hx⟩ => ⟨m, hm, hx.symm⟩, fun ⟨m, hm, hx⟩ => ⟨m, hm, hx.symm⟩⟩

theorem memWrite_eq_some {s t : State} {g o : Nat} {x : Byte} :
    memWrite s g o x = some t ↔
      cellExists s g o = true ∧
        ∃ m, s.seg = some m ∧ t = s.withSeg (Memory.write m (flatAddress s.mss g o) x) := by
  unfold memWrite
  cases cellExists s g o
  · simp
  · simp only [if_true, true_and, Option.map_eq_some_iff]
    exact ⟨fun ⟨m, hm, hx⟩ => ⟨m, hm, hx.symm⟩, fun ⟨m, hm, hx⟩ => ⟨m, hm, hx.symm⟩⟩

/-- The cell of a bit index exists. -/
abbrev indexExists (s : State) (idx : Nat) : Prop :=
  cellExists s (locate s.mss idx).segment (locate s.mss idx).offset = true

theorem bitTest_eq_some {s : State} {idx b : Nat} :
    bitTest s idx = some b ↔
      indexExists s idx ∧ ∃ m, s.seg = some m ∧ b = bitOfNat (Memory.read m (idx / 8)).toNat (idx % 8) := by
  simp only [bitTest, Option.map_eq_some_iff, memRead_eq_some, flatAddress_locate, locate_bit]
  constructor
  · rintro ⟨_, ⟨hc, m, hm, rfl⟩, rfl⟩
    exact ⟨hc, m, hm, rfl⟩
  · rintro ⟨hc, m, hm, rfl⟩
    exact ⟨_, ⟨hc, m, hm, rfl⟩, rfl⟩

/-- The store after one bit set (42_bit_access.md R164). -/
def setBitOf (m : Memory) (idx : Nat) : Memory :=
  Memory.write m (idx / 8) (Memory.read m (idx / 8) ||| mask (idx % 8))

theorem bitSet_eq_some {s t : State} {idx : Nat} :
    bitSet s idx = some t ↔
      indexExists s idx ∧ ∃ m, s.seg = some m ∧ t = s.withSeg (setBitOf m idx) := by
  unfold bitSet
  constructor
  · intro h
    dsimp only at h
    split at h
    · rename_i x hx
      obtain ⟨hc, m, hm, rfl⟩ := memRead_eq_some.1 hx
      obtain ⟨-, m', hm', rfl⟩ := memWrite_eq_some.1 h
      obtain rfl : m = m' := Option.some.inj (hm.symm.trans hm')
      exact ⟨hc, m, hm, by simp [setBitOf]⟩
    · exact absurd h (by simp)
  · rintro ⟨hc, m, hm, rfl⟩
    have hx : memRead s (locate s.mss idx).segment (locate s.mss idx).offset
        = some (Memory.read m (idx / 8)) := memRead_eq_some.2 ⟨hc, m, hm, by simp⟩
    dsimp only
    rw [hx]
    exact memWrite_eq_some.2 ⟨hc, m, hm, by simp [setBitOf]⟩

/-- The store after the bit sets of ADD, in order (42_bit_access.md R166). -/
def setBitsOf (m : Memory) (idx : List Nat) : Memory := idx.foldl setBitOf m

@[simp] theorem setBitsOf_nil (m : Memory) : setBitsOf m [] = m := rfl

@[simp] theorem setBitsOf_cons (m : Memory) (i : Nat) (idx : List Nat) :
    setBitsOf m (i :: idx) = setBitsOf (setBitOf m i) idx := rfl

/-- All the bit sets of ADD succeed exactly when every index names a cell, and then only the store changes. -/
theorem bitSetAll_eq_some {s t : State} {m : Memory} (hm : s.seg = some m) {idx : List Nat} :
    bitSetAll idx s = some t ↔ (∀ i ∈ idx, indexExists s i) ∧ t = s.withSeg (setBitsOf m idx) := by
  induction idx generalizing s m with
  | nil =>
    have : s.withSeg m = s := by cases s; cases hm; rfl
    simpa [bitSetAll, this] using eq_comm
  | cons i rest ih =>
    rw [bitSetAll]
    constructor
    · intro h
      split at h
      · rename_i s' hs'
        obtain ⟨hc, m', hm', rfl⟩ := bitSet_eq_some.1 hs'
        obtain rfl : m = m' := Option.some.inj (hm.symm.trans hm')
        obtain ⟨hall, rfl⟩ := (ih (State.withSeg_seg ..)).1 h
        exact ⟨by simpa using ⟨hc, fun j hj => hall j hj⟩, by simp⟩
      · exact absurd h (by simp)
    · rintro ⟨hall, rfl⟩
      have hs' : bitSet s i = some (s.withSeg (setBitOf m i)) :=
        bitSet_eq_some.2 ⟨hall i (by simp), m, hm, rfl⟩
      rw [hs']
      exact (ih (State.withSeg_seg ..)).2 ⟨fun j hj => hall j (by simp [hj]), by simp⟩

/-- Without a store no bit can be set. -/
theorem bitSetAll_none {s : State} (hm : s.seg = none) {i : Nat} {idx : List Nat} :
    bitSetAll (i :: idx) s = none := by
  have : bitSet s i = none := by
    cases h : bitSet s i with
    | none => rfl
    | some t =>
      obtain ⟨-, m, hm', -⟩ := bitSet_eq_some.1 h
      rw [hm] at hm'
      exact absurd hm' (by simp)
  rw [bitSetAll, this]

/-- `FLAG` of HAS when every tested index names a cell: the AND of the bit tests (42_bit_access.md R170). -/
theorem allBitsSet_of_exists {s : State} {m : Memory} (hm : s.seg = some m) {idx : List Nat}
    (h : ∀ i ∈ idx, indexExists s i) :
    allBitsSet s idx =
      some (idx.all fun i => decide (bitOfNat (Memory.read m (i / 8)).toNat (i % 8) ≠ 0)) := by
  induction idx with
  | nil => rfl
  | cons i rest ih =>
    have ht : bitTest s i = some (bitOfNat (Memory.read m (i / 8)).toNat (i % 8)) :=
      bitTest_eq_some.2 ⟨h i (by simp), m, hm, rfl⟩
    rw [allBitsSet, ht, ih fun j hj => h j (by simp [hj])]
    dsimp only
    split
    · rename_i h0
      simp [h0]
    · rename_i h0
      simp [h0]

/-! ### The canonical form through the bit store -/

theorem wf_setBitOf {m : Memory} (h : m.wf = true) (i : Nat) : (setBitOf m i).wf = true :=
  Memory.wf_write h

theorem read_setBitOf {m : Memory} (h : m.wf = true) (i a : Nat) :
    Memory.read (setBitOf m i) a =
      if a = i / 8 then Memory.read m a ||| mask (i % 8) else Memory.read m a := by
  rw [setBitOf, Memory.read_write h]
  split
  · rename_i ha
    rw [ha]
  · rfl

/-- Every memory operation of ADD keeps the canonical form. -/
theorem wf_setBitsOf {m : Memory} (h : m.wf = true) (idx : List Nat) : (setBitsOf m idx).wf = true := by
  induction idx generalizing m with
  | nil => exact h
  | cons i rest ih => exact ih (wf_setBitOf h i)

theorem below_setBitsOf {n : Nat} {m : Memory} (h : m.below n = true) {idx : List Nat}
    (hi : ∀ i ∈ idx, i / 8 < n) : (setBitsOf m idx).below n = true := by
  induction idx generalizing m with
  | nil => exact h
  | cons i rest ih =>
    exact ih (Memory.below_write (hi i (by simp)) h) fun j hj => hi j (by simp [hj])

end Sys2Proof.Machine
end

