-- ==== Sys2Proof/Laws/PerInstr.lean ====
section
/-! SUPPORT. Statements made per command: the encoding of every command, with any operands, selects the row of the opcode
map that bears its mnemonic (30_encoding.md R80). -/

namespace Sys2Proof.Laws.OpcodeRow

/-- Some row of the opcode map bears the command's mnemonic, and the command's word selects it. -/
def Statement (i : Instr) : Prop := ∃ r ∈ opcodeTable, r.mnemonic = mnemonicOf i ∧ r.selects (encode i) = true

/-- A row whose mask is the packing of three fields selects what agrees with it field by field. -/
theorem selects_of_fields {r : OpcodeRow} {op aux mop maux : Byte} {arg marg : BitVec 128}
    (hm : r.maskWord = packWord mop maux marg) (hr : packWord (op &&& mop) (aux &&& maux) (arg &&& marg) = r.matchWord) :
    r.selects (packWord op aux arg) = true := by
  rw [OpcodeRow.selects, hm, packWord_and, hr]
  exact beq_self_eq_true _

/-- The argument of format V under its mask: only the reserved bits stay, and they are zero. -/
theorem formatV_masked (x : BitVec 32) :
    (show BitVec 128 from 0#96 ++ x) &&& (show BitVec 128 from BitVec.allOnes 96 ++ 0#32) = 0#128 := by
  show (0#96 ++ x) &&& (BitVec.allOnes 96 ++ 0#32) = 0#128
  rw [BitVec.and_append]
  simp

theorem formatC_masked (x : BitVec 8) :
    (show BitVec 128 from 0#120 ++ x) &&& (show BitVec 128 from BitVec.allOnes 120 ++ 0#8) = 0#128 := by
  show (0#120 ++ x) &&& (BitVec.allOnes 120 ++ 0#8) = 0#128
  rw [BitVec.and_append]
  simp

theorem formatS_masked (x : BitVec 64) :
    (show BitVec 128 from x ++ 0#64) &&& (show BitVec 128 from 0#64 ++ BitVec.allOnes 64) = 0#128 := by
  show (x ++ 0#64) &&& (0#64 ++ BitVec.allOnes 64) = 0#128
  rw [BitVec.and_append]
  simp

theorem init (var : Int) : Statement (.init var) :=
  ⟨_, .head _, rfl, selects_of_fields (mop := 0xff#8) (maux := 0xff#8)
    (marg := BitVec.allOnes 96 ++ 0#32) (by decide) (by rw [formatV_masked]; decide)⟩

theorem desc (var : Int) : Statement (.desc var) :=
  ⟨_, .tail _ (.head _), rfl, selects_of_fields (mop := 0xff#8) (maux := 0xff#8)
    (marg := BitVec.allOnes 96 ++ 0#32) (by decide) (by rw [formatV_masked]; decide)⟩

theorem add (idLen : Nat) (id : Identifier) : Statement (.add idLen id) :=
  ⟨_, .tail _ (.tail _ (.head _)), rfl, selects_of_fields (mop := 0xff#8) (maux := 0#8) (marg := 0#128)
    (by decide) (by rw [BitVec.and_zero, BitVec.and_zero]; decide)⟩

theorem has (idLen : Nat) (id : Identifier) : Statement (.has idLen id) :=
  ⟨_, .tail _ (.tail _ (.tail _ (.head _))), rfl, selects_of_fields (mop := 0xff#8) (maux := 0#8)
    (marg := 0#128) (by decide) (by rw [BitVec.and_zero, BitVec.and_zero]; decide)⟩

theorem derive (idLen : Nat) (id : Identifier) : Statement (.derive idLen id) :=
  ⟨_, .tail _ (.tail _ (.tail _ (.tail _ (.head _)))), rfl, selects_of_fields (mop := 0xff#8) (maux := 0#8)
    (marg := 0#128) (by decide) (by rw [BitVec.and_zero, BitVec.and_zero]; decide)⟩

theorem rdcsr (csrn : Nat) : Statement (.rdcsr csrn) :=
  ⟨_, .tail _ (.tail _ (.tail _ (.tail _ (.tail _ (.head _))))), rfl, selects_of_fields (mop := 0xff#8)
    (maux := 0xff#8) (marg := BitVec.allOnes 120 ++ 0#8) (by decide) (by rw [formatC_masked]; decide)⟩

theorem rdlen (segi : Nat) : Statement (.rdlen segi) :=
  ⟨_, .tail _ (.tail _ (.tail _ (.tail _ (.tail _ (.tail _ (.head _)))))), rfl, selects_of_fields (mop := 0xff#8)
    (maux := 0xff#8) (marg := 0#64 ++ BitVec.allOnes 64) (by decide) (by rw [formatS_masked]; decide)⟩

theorem rdbyte (segi off : Nat) : Statement (.rdbyte segi off) :=
  ⟨_, .tail _ (.tail _ (.tail _ (.tail _ (.tail _ (.tail _ (.tail _ (.head _))))))), rfl,
    selects_of_fields (mop := 0xff#8) (maux := 0xff#8) (marg := 0#128) (by decide)
      (by rw [BitVec.and_zero]; decide)⟩

end Sys2Proof.Laws.OpcodeRow
end

