-- ==== Sys2Proof/Laws/Step.lean ====
section
/-! SUPPORT. What one command and one step can do, said once: the cases from which every statement about a next state
starts. -/

namespace Sys2Proof.Machine

/-- INIT answers an error and changes nothing, or builds a new filter. -/
theorem execInit_cases {var : Int} {s t : State} (h : execInit var s = .next t) :
    (∃ e, variantOperand s.config var = .error e ∧ t = s.answer (errorResponse e)) ∨
      (2 ≤ var ∧ var ≤ s.config.vMax ∧
        t = (constructFilter var.toNat s).answer (okResponse noFlag (initBeats s.mss var.toNat))) := by
  unfold execInit at h
  split at h
  · exact .inl ⟨_, ‹_›, by simpa using h.symm⟩
  · rename_i v hv
    obtain ⟨h2, hm, rfl⟩ := variantOperand_eq_ok.1 hv
    exact .inr ⟨h2, hm, by simpa using h.symm⟩

/-- DESC answers an error or the three beats; it changes nothing either way. -/
theorem execDesc_cases {var : Int} {s t : State} (h : execDesc var s = .next t) :
    (∃ e, variantOperand s.config var = .error e ∧ t = s.answer (errorResponse e)) ∨
      (2 ≤ var ∧ var ≤ s.config.vMax ∧ t = s.answer (okResponse noFlag (describeBeats var.toNat))) := by
  unfold execDesc at h
  split at h
  · exact .inl ⟨_, ‹_›, by simpa using h.symm⟩
  · rename_i v hv
    obtain ⟨h2, hm, rfl⟩ := variantOperand_eq_ok.1 hv
    exact .inr ⟨h2, hm, by simpa using h.symm⟩

/-- ADD answers an error and changes nothing, or sets the derived bits. -/
theorem execAdd_cases {idLen : Nat} {id : Identifier} {s t : State} (h : execAdd idLen id s = .next t) :
    (∃ e, identifierOperand idLen id s = .error e ∧ t = s.answer (errorResponse e)) ∨
      (s.cfg = true ∧ idLen = 16 ∧
        ∃ s', bitSetAll (derive s.variant id) s = some s' ∧ t = s'.answer (okResponse noFlag [])) := by
  unfold execAdd at h
  split at h
  · exact .inl ⟨_, ‹_›, by simpa using h.symm⟩
  · rename_i idx hidx
    obtain ⟨hc, hl, rfl⟩ := identifierOperand_eq_ok.1 hidx
    split at h
    · exact .inr ⟨hc, hl, _, ‹_›, by simpa using h.symm⟩
    · exact absurd h (by simp)

/-- HAS answers an error or its flag; it changes nothing either way. -/
theorem execHas_cases {idLen : Nat} {id : Identifier} {s t : State} (h : execHas idLen id s = .next t) :
    (∃ e, identifierOperand idLen id s = .error e ∧ t = s.answer (errorResponse e)) ∨
      (s.cfg = true ∧ idLen = 16 ∧
        ∃ flag, allBitsSet s (derive s.variant id) = some flag ∧ t = s.answer (okResponse flag [])) := by
  unfold execHas at h
  split at h
  · exact .inl ⟨_, ‹_›, by simpa using h.symm⟩
  · rename_i idx hidx
    obtain ⟨hc, hl, rfl⟩ := identifierOperand_eq_ok.1 hidx
    split at h
    · exact .inr ⟨hc, hl, _, ‹_›, by simpa using h.symm⟩
    · exact absurd h (by simp)

/-- DERIVE answers an error or the indices; it changes nothing either way. -/
theorem execDerive_cases {idLen : Nat} {id : Identifier} {s t : State} (h : execDerive idLen id s = .next t) :
    (∃ e, identifierOperand idLen id s = .error e ∧ t = s.answer (errorResponse e)) ∨
      (s.cfg = true ∧ idLen = 16 ∧
        t = s.answer (okResponse noFlag ((derive s.variant id).map zext128))) := by
  unfold execDerive at h
  split at h
  · exact .inl ⟨_, ‹_›, by simpa using h.symm⟩
  · rename_i idx hidx
    obtain ⟨hc, hl, rfl⟩ := identifierOperand_eq_ok.1 hidx
    exact .inr ⟨hc, hl, by simpa using h.symm⟩

/-- RDCSR answers `OutOfRange` or one beat; it changes nothing either way. -/
theorem execRdcsr_cases {csrn : Nat} {s t : State} (h : execRdcsr csrn s = .next t) :
    (∃ e, csrOperand csrn = .error e ∧ t = s.answer (errorResponse e)) ∨
      (∃ c, csrOperand csrn = .ok c ∧ t = s.answer (okResponse noFlag [zext128 (readCsr s c)])) := by
  unfold execRdcsr at h
  split at h
  · exact .inl ⟨_, ‹_›, by simpa using h.symm⟩
  · exact .inr ⟨_, ‹_›, by simpa using h.symm⟩

/-- RDLEN answers an error or one beat; it changes nothing either way. -/
theorem execRdlen_cases {segi : Nat} {s t : State} (h : execRdlen segi s = .next t) :
    (∃ e, segmentOperand segi s = .error e ∧ t = s.answer (errorResponse e)) ∨
      (∃ len, segmentOperand segi s = .ok len ∧ t = s.answer (okResponse noFlag [zext128 len])) := by
  unfold execRdlen at h
  split at h
  · exact .inl ⟨_, ‹_›, by simpa using h.symm⟩
  · exact .inr ⟨_, ‹_›, by simpa using h.symm⟩

/-- RDBYTE answers an error or one beat; it changes nothing either way. -/
theorem execRdbyte_cases {segi off : Nat} {s t : State} (h : execRdbyte segi off s = .next t) :
    (∃ e, cellOperand segi off s = .error e ∧ t = s.answer (errorResponse e)) ∨
      (∃ x, memRead s segi off = some x ∧ t = s.answer (okResponse noFlag [zext128 x.toNat])) := by
  unfold execRdbyte at h
  split at h
  · exact .inl ⟨_, ‹_›, by simpa using h.symm⟩
  · split at h
    · exact .inr ⟨_, ‹_›, by simpa using h.symm⟩
    · exact absurd h (by simp)

/-- What a successful command does to the triple: INIT builds, ADD sets bits, the others change nothing (10_state.md
R30). -/
def successEffect (i : Instr) (s s' : State) : Prop :=
  match i with
  | .init var => 2 ≤ var ∧ var ≤ s.config.vMax ∧ s' = constructFilter var.toNat s
  | .add idLen id => s.cfg = true ∧ idLen = 16 ∧ bitSetAll (derive s.variant id) s = some s'
  | _ => s' = s

/-- One command that answers a next state either raised one error and changed nothing, or had its effect and answered
success. -/
theorem exec_cases {i : Instr} {s t : State} (h : exec i s = .next t) :
    (∃ e, t = s.answer (errorResponse e)) ∨
      ∃ s' flag data, successEffect i s s' ∧ t = s'.answer (okResponse flag data) := by
  cases i with
  | init var =>
    rcases execInit_cases h with ⟨e, -, rfl⟩ | ⟨h2, hm, rfl⟩
    · exact .inl ⟨e, rfl⟩
    · exact .inr ⟨_, _, _, ⟨h2, hm, rfl⟩, rfl⟩
  | desc var =>
    rcases execDesc_cases h with ⟨e, -, rfl⟩ | ⟨-, -, rfl⟩
    · exact .inl ⟨e, rfl⟩
    · exact .inr ⟨_, _, _, rfl, rfl⟩
  | add idLen id =>
    rcases execAdd_cases h with ⟨e, -, rfl⟩ | ⟨hc, hl, s', hs', rfl⟩
    · exact .inl ⟨e, rfl⟩
    · exact .inr ⟨_, _, _, ⟨hc, hl, hs'⟩, rfl⟩
  | has idLen id =>
    rcases execHas_cases h with ⟨e, -, rfl⟩ | ⟨-, -, flag, -, rfl⟩
    · exact .inl ⟨e, rfl⟩
    · exact .inr ⟨_, _, _, rfl, rfl⟩
  | derive idLen id =>
    rcases execDerive_cases h with ⟨e, -, rfl⟩ | ⟨-, -, rfl⟩
    · exact .inl ⟨e, rfl⟩
    · exact .inr ⟨_, _, _, rfl, rfl⟩
  | rdcsr csrn =>
    rcases execRdcsr_cases h with ⟨e, -, rfl⟩ | ⟨c, -, rfl⟩
    · exact .inl ⟨e, rfl⟩
    · exact .inr ⟨_, _, _, rfl, rfl⟩
  | rdlen segi =>
    rcases execRdlen_cases h with ⟨e, -, rfl⟩ | ⟨len, -, rfl⟩
    · exact .inl ⟨e, rfl⟩
    · exact .inr ⟨_, _, _, rfl, rfl⟩
  | rdbyte segi off =>
    rcases execRdbyte_cases h with ⟨e, -, rfl⟩ | ⟨x, -, rfl⟩
    · exact .inl ⟨e, rfl⟩
    · exact .inr ⟨_, _, _, rfl, rfl⟩

/-- The bit sets of ADD touch the store alone. -/
theorem bitSetAll_frame {idx : List Nat} {s t : State} (h : bitSetAll idx s = some t) :
    t = s ∨ ∃ m, s.seg = some m ∧ t = s.withSeg (setBitsOf m idx) := by
  cases hm : s.seg with
  | some m => exact .inr ⟨m, rfl, ((bitSetAll_eq_some hm).1 h).2⟩
  | none =>
    cases idx with
    | nil => exact .inl (by simpa [bitSetAll] using h.symm)
    | cons i rest =>
      rw [bitSetAll_none hm] at h
      exact absurd h (by simp)

/-- One command word: illegal, or the command it decodes to. -/
theorem runCommand_cases {cw : CommandWord} {s t : State} (h : runCommand cw s = .next t) :
    (∃ why, decode cw = .illegal why ∧ t = s.answer (errorResponse .illegalCommand)) ∨
      ∃ i, decode cw = .legal i ∧ exec i s = .next t := by
  unfold runCommand at h
  split at h
  · exact .inr ⟨_, ‹_›, h⟩
  · exact .inl ⟨_, ‹_›, by simpa using h.symm⟩

/-- One step: nothing presented, a reset, or one command. -/
theorem step_cases {s t : State} (h : step s = .next t) :
    (s.inputs = [] ∧ t = s) ∨
      (∃ rest, s.inputs = .rst :: rest ∧ t = resetUnit (s.withInputs rest)) ∨
        ∃ cw rest, s.inputs = .command cw :: rest ∧ runCommand cw (s.withInputs rest) = .next t := by
  unfold step at h
  split at h
  · rename_i hi
    exact .inl ⟨hi, by simpa using h.symm⟩
  · rename_i input rest hi
    cases input with
    | rst => exact .inr (.inl ⟨rest, hi, by simpa [runInput] using h.symm⟩)
    | command cw => exact .inr (.inr ⟨cw, rest, hi, h⟩)

/-- What one effect may do to the store: nothing, a new empty one, or some bits set. -/
theorem successEffect_seg {i : Instr} {s s' : State} (h : successEffect i s s') :
    s' = s ∨ (∃ v : Nat, 2 ≤ v ∧ v ≤ s.config.vMax ∧ s' = constructFilter v s) ∨
      ∃ m idx, s.seg = some m ∧ s' = s.withSeg (setBitsOf m idx) := by
  cases i with
  | init var =>
    obtain ⟨h2, hm, rfl⟩ := h
    exact .inr (.inl ⟨var.toNat, by omega, by omega, rfl⟩)
  | add idLen id =>
    obtain ⟨-, -, hs⟩ := h
    rcases bitSetAll_frame hs with rfl | ⟨m, hm, rfl⟩
    · exact .inl rfl
    · exact .inr (.inr ⟨m, _, hm, rfl⟩)
  | desc _ => exact .inl h
  | has _ _ => exact .inl h
  | derive _ _ => exact .inl h
  | rdcsr _ => exact .inl h
  | rdlen _ => exact .inl h
  | rdbyte _ _ => exact .inl h

end Sys2Proof.Machine
end

