-- ==== Sys2Proof/Machine/Assembler.lean ====
section
/-! DEFINITION. The assembler syntax of 30_encoding.md R90 to R92: one line of text to one command word. It is the host's
notation and no part of the unit (92_eei_decisions.md D29); how the text is cut into words is log 12. -/

namespace Sys2Proof.Machine

/-- A hexadecimal digit; upper and lower case are equal (R91). -/
def hexDigit (c : Char) : Option Nat :=
  if '0' ≤ c ∧ c ≤ '9' then some (c.toNat - '0'.toNat)
  else if 'a' ≤ c ∧ c ≤ 'f' then some (c.toNat - 'a'.toNat + 10)
  else if 'A' ≤ c ∧ c ≤ 'F' then some (c.toNat - 'A'.toNat + 10)
  else none

/-- A decimal digit. -/
def decDigit (c : Char) : Option Nat :=
  if '0' ≤ c ∧ c ≤ '9' then some (c.toNat - '0'.toNat) else none

/-- Digits of a base read left to right after the number `acc`. -/
def digitsFrom (digit : Char → Option Nat) (base : Nat) : Nat → List Char → Option Nat
  | acc, [] => some acc
  | acc, c :: rest =>
    match digit c with
    | some d => digitsFrom digit base (acc * base + d) rest
    | none => none

/-- A decimal natural number of one digit or more. -/
def decNat (cs : List Char) : Option Nat := if cs = [] then none else digitsFrom decDigit 10 0 cs

/-- A decimal integer, a leading `-` allowed (R90). -/
def decInt (cs : List Char) : Option Int :=
  match cs with
  | '-' :: rest => (decNat rest).map fun n => -(n : Int)
  | _ => (decNat cs).map fun n => (n : Int)

/-- Exactly `n` hexadecimal digits. -/
def hexExactly (n : Nat) (cs : List Char) : Option Nat :=
  if cs.length = n then digitsFrom hexDigit 16 0 cs else none

/-- Cut a list of characters at every occurrence of `sep`. -/
def splitAtChar (sep : Char) : List Char → List (List Char)
  | [] => [[]]
  | c :: rest =>
    match splitAtChar sep rest with
    | [] => [[c]]
    | w :: ws => if c = sep then [] :: w :: ws else (c :: w) :: ws

/-- The written form of an identifier: groups of 8, 4, 4, 4 and 12 hexadecimal digits separated by `-`, the first pair
of digits byte 0, the high nibble first (R91; PRESUMED, the spec's own general-knowledge mark G1, log 12). -/
def parseUuid (cs : List Char) : Option Identifier :=
  let groups := splitAtChar '-' cs
  if groups.map List.length = [8, 4, 4, 4, 12] then
    (hexExactly 32 groups.flatten).map fun n => BitVec.ofNat 128 n
  else none

/-- What stands before the comment sign `;` (R90). -/
def stripComment : List Char → List Char
  | [] => []
  | c :: rest => if c = ';' then [] else c :: stripComment rest

/-- The words of a line: cut at blanks, a comma a word of its own (log 12). -/
def wordsOf : List Char → List (List Char)
  | [] => []
  | c :: rest =>
    if c = ' ' then wordsOf rest
    else if c = ',' then [','] :: wordsOf rest
    else
      match rest with
      | [] => [[c]]
      | d :: _ =>
        if d = ' ' ∨ d = ',' then [c] :: wordsOf rest
        else
          match wordsOf rest with
          | w :: ws => (c :: w) :: ws
          | [] => [[c]]

/-- A register name of 10_state.md R29. -/
def Csr.ofName (cs : List Char) : Option Nat :=
  if cs = "STATUS".toList then some 0
  else if cs = "VARIANT".toList then some 1
  else if cs = "K".toList then some 2
  else if cs = "M".toList then some 3
  else if cs = "BUFSZ".toList then some 4
  else if cs = "NSEG".toList then some 5
  else if cs = "MAXSEG".toList then some 6
  else if cs = "VMAX".toList then some 7
  else none

/-- `name` or `n` of RDCSR (R90). -/
def parseCsr (cs : List Char) : Option Nat :=
  match Csr.ofName cs with
  | some n => some n
  | none => decNat cs

/-- `len=n` (R90). -/
def parseLen (cs : List Char) : Option Nat :=
  match cs with
  | 'l' :: 'e' :: 'n' :: '=' :: rest => decNat rest
  | _ => none

/-- The command with one operand word. -/
def parseOne (name a : List Char) : Option Instr :=
  if name = "INIT".toList then (decInt a).map .init
  else if name = "DESC".toList then (decInt a).map .desc
  else if name = "ADD".toList then (parseUuid a).map (.add 16)
  else if name = "HAS".toList then (parseUuid a).map (.has 16)
  else if name = "DERIVE".toList then (parseUuid a).map (.derive 16)
  else if name = "RDCSR".toList then (parseCsr a).map .rdcsr
  else if name = "RDLEN".toList then (decNat a).map .rdlen
  else none

/-- The command with two operand words. -/
def parseTwo (name a b : List Char) : Option Instr :=
  if name = "ADD".toList then (parseLen b).bind fun n => (parseUuid a).map (.add n)
  else if name = "HAS".toList then (parseLen b).bind fun n => (parseUuid a).map (.has n)
  else if name = "DERIVE".toList then (parseLen b).bind fun n => (parseUuid a).map (.derive n)
  else if name = "RDBYTE".toList then (decNat a).bind fun s => (decNat b).map (.rdbyte s)
  else none

/-- The command word of a command whose operands fit their fields. -/
def encodeChecked (i : Instr) : Option CommandWord := if i.wf then some (encode i) else none

/-- One line to exactly one command word (R90); there are no pseudo-instructions (R92). -/
def assembleChars (line : List Char) : Option CommandWord :=
  match wordsOf (stripComment line) with
  | [name, a] =>
    if name = ".word".toList then (hexExactly 36 a).map fun n => BitVec.ofNat 144 n
    else (parseOne name a).bind encodeChecked
  | [name, a, comma, b] => if comma = [','] then (parseTwo name a b).bind encodeChecked else none
  | _ => none

/-- `assembleChars` of a string. -/
def assemble (line : String) : Option CommandWord := assembleChars line.toList

end Sys2Proof.Machine
end

