-- ==== Sys2Proof/Tests/Slice0.lean ====
section
/-! SUPPORT. The model's own tests. Every expected value comes from the spec's words and tables (each theorem names its
source); the witnesses at the end show states and operands that meet the hypotheses of the statements. -/

namespace Sys2Proof.Tests

/- Many small kernel evaluations: one after another, so that they do not each hold a thread. -/
set_option Elab.async false

open Sys2Proof.Machine Sys2Proof.Safety

/-! ### Helpers -/

/-- The parameters of the spec's programs P1, P3 and P4. -/
def params : Config := ⟨64, 16⟩

/-- A unit with a filter of variant `v` that holds these bytes. -/
def filterState (c : Config) (v : Nat) (m : Memory) : State :=
  { config := c, cfg := true, v := BitVec.ofNat 7 v, seg := some m, inputs := [], responses := [] }

/-- Did the command answer a next state? -/
def isNext : Result → Bool
  | .next _ => true
  | _ => false

/-- The state it answered. -/
def resultOf : Result → State
  | .next t => t
  | _ => State.reset

theorem eq_next {r : Result} (h : isNext r = true) : r = .next (resultOf r) := by
  cases r with
  | next _ => rfl
  | fault _ => exact absurd h Bool.false_ne_true
  | refused _ => exact absurd h Bool.false_ne_true

/-- The last response after one command word, as `(STATUS, FLAG, beats)`. -/
def answerTo (s : State) (w : Nat) : Nat × Bool × List Nat :=
  match (resultOf (step (s.withFetchWord 144 w))).responses.getLast? with
  | some r => (r.status.toNat, r.flag, r.data.map BitVec.toNat)
  | none => (99, false, [])

/-- The triple after one command word. -/
def tripleAfter (s : State) (w : Nat) : Bool × Nat × Option Memory :=
  let t := resultOf (step (s.withFetchWord 144 w))
  (t.cfg, t.v.toNat, t.seg)

/-- The identifiers of 95_test_vectors.md. -/
def idA : Identifier := 0x123e4567e89b42d3a456426614174000#128
def idC : Identifier := 0x00112233445566778899aabbccddeeff#128
def idD : Identifier := 0xf81d4fae7dec41d0a76500a0c91e6bf6#128
def idL : Identifier := 0x01010101010140008000000000000000#128

/-- The store of program P1 after `ADD ID_A` at `V = 4`: the bytes of 95_test_vectors.md section 2.4 that are not zero. -/
def storeP1 : Memory := [(0, 0x02#8), (2, 0x04#8), (4, 0x08#8), (7, 0x40#8), (8, 0x10#8), (10, 0x20#8), (12, 0x40#8),
  (14, 0x80#8), (17, 0x40#8), (19, 0x01#8), (21, 0x02#8), (23, 0x08#8), (25, 0x10#8), (26, 0x04#8), (29, 0x20#8),
  (30, 0x08#8)]
  ++ [(33, 0x04#8), (34, 0x10#8), (36, 0x20#8), (38, 0x40#8), (40, 0x10#8), (42, 0x04#8), (44, 0x40#8), (46, 0x40#8),
  (48, 0x02#8), (50, 0x10#8), (52, 0x02#8), (54, 0x80#8), (56, 0x10#8), (58, 0x01#8), (60, 0x01#8), (62, 0x01#8)]

/-- `Configured(4)` with the store of P1. -/
def afterP1 : State := filterState params 4 storeP1

/-! ### WellFormed refuses an ill-formed term for each check -/

theorem test_wf_refuses_var_above : (Instr.init (2 ^ 31)).wf = false := by decide
theorem test_wf_refuses_var_below : (Instr.desc (-2 ^ 31 - 1)).wf = false := by decide
theorem test_wf_refuses_idLen : (Instr.add 256 0#128).wf = false := by decide
theorem test_wf_refuses_csrn : (Instr.rdcsr 256).wf = false := by decide
theorem test_wf_refuses_segi : (Instr.rdlen (2 ^ 64)).wf = false := by decide
theorem test_wf_refuses_off : (Instr.rdbyte 0 (2 ^ 64)).wf = false := by decide

/-! ### Decoding, from the format tables of 30_encoding.md sections 2, 3 and 7, field by field -/

/-- Format V, `OP` = 0x01: `VAR` = -2 is `0xfffffffe` (R73, R74). -/
theorem test_decode_init :
    decode (0b00000001#8 ++ 0b00000000#8 ++ 0#96 ++ 0b11111111111111111111111111111110#32) = .legal (.init (-2)) := by
  decide
/-- Format V, `OP` = 0x02. -/
theorem test_decode_desc :
    decode (0b00000010#8 ++ 0b00000000#8 ++ 0#96 ++ 0b00000000000000000000000000010001#32) = .legal (.desc 17) := by
  decide
/-- Format I, `OP` = 0x03, `IDLEN` = 16 (R75). -/
theorem test_decode_add : decode (0b00000011#8 ++ 0b00010000#8 ++ idA) = .legal (.add 16 idA) := by decide
/-- Format I, `OP` = 0x04, `IDLEN` = 255: no value of `IDLEN` is reserved (R75). -/
theorem test_decode_has : decode (0b00000100#8 ++ 0b11111111#8 ++ idC) = .legal (.has 255 idC) := by decide
/-- Format I, `OP` = 0x05. -/
theorem test_decode_derive : decode (0b00000101#8 ++ 0b00001111#8 ++ idD) = .legal (.derive 15 idD) := by decide
/-- Format C, `OP` = 0x06 (R76). -/
theorem test_decode_rdcsr :
    decode (0b00000110#8 ++ 0b00000000#8 ++ 0#120 ++ 0b10000001#8) = .legal (.rdcsr 129) := by decide
/-- Format S, `OP` = 0x07 (R77). -/
theorem test_decode_rdlen :
    decode (0b00000111#8 ++ 0b00000000#8 ++ 0x8000000000000001#64 ++ 0#64) = .legal (.rdlen 0x8000000000000001) := by
  decide
/-- Format B, `OP` = 0x08 (R78). -/
theorem test_decode_rdbyte :
    decode (0b00001000#8 ++ 0b00000000#8 ++ 0x0000000000000003#64 ++ 0x8000000000000007#64)
      = .legal (.rdbyte 3 0x8000000000000007) := by decide
/-- The byte form of `RDBYTE 1, 35` (R71; section 7). -/
theorem test_decode_bytes :
    decodeBytes [0x08#8, 0#8, 0#8, 0#8, 0#8, 0#8, 0#8, 0#8, 0#8, 0x01#8, 0#8, 0#8, 0#8, 0#8, 0#8, 0#8, 0#8, 0x23#8]
      = .legal (.rdbyte 1 35) := by decide
theorem test_decode_short : decodeBytes [0x08#8] = .illegal (.wrongLength 1) := by decide
/-- The first rows of 95_test_vectors.md section 2.6. -/
theorem test_decode_rejects :
    decode 0x000000000000000000000000000000000000#144 = .illegal (.reservedOpcode 0#8)
      ∧ decode 0x090000000000000000000000000000000000#144 = .illegal (.reservedOpcode 9#8)
      ∧ decode 0x010100000000000000000000000000000000#144 = .illegal .auxNotZero
      ∧ decode 0x010000000000000000000000000100000004#144 = .illegal .reservedNotZero
      ∧ decode 0x010080000000000000000000000000000004#144 = .illegal .reservedNotZero
      ∧ decode 0x060000000000000000000000000000000100#144 = .illegal .reservedNotZero
      ∧ decode 0x070000000000000000000000000000000001#144 = .illegal .reservedNotZero
      ∧ decode 0x080100000000000000000000000000000000#144 = .illegal .auxNotZero := by decide
/-- Encoding, from section 7 of 30_encoding.md. -/
theorem test_encode :
    encode (.init (-1)) = 0x0100000000000000000000000000ffffffff#144
      ∧ encode (.add 16 idA) = 0x0310123e4567e89b42d3a456426614174000#144
      ∧ encode (.rdlen 1) = 0x070000000000000000010000000000000000#144
      ∧ encode (.rdbyte 1 35) = 0x080000000000000000010000000000000023#144 := by decide

/-! ### One step each (95_test_vectors.md sections 2 and 3) -/

/-- P1 command 1: the beats and the new triple. -/
theorem test_init :
    answerTo State.reset 0x010000000000000000000000000000000004 = (0, false, [32, 512, 64, 1])
      ∧ tripleAfter State.reset 0x010000000000000000000000000000000004 = (true, 4, some []) := by decide +kernel
/-- P5 command 12: INIT with the same variant clears; section 2.6: a failed INIT keeps the filter. -/
theorem test_init_again :
    tripleAfter afterP1 0x010000000000000000000000000000000004 = (true, 4, some [])
      ∧ tripleAfter afterP1 0x0100000000000000000000000000ffffffff = (true, 4, some storeP1)
      ∧ answerTo afterP1 0x0100000000000000000000000000ffffffff = (1, false, [])
      ∧ answerTo afterP1 0x010000000000000000000000000000000011 = (5, false, []) := by decide +kernel
/-- Section 2.1: `DESC 16`, `DESC 17`, `DESC -2147483648`. -/
theorem test_desc :
    answerTo State.reset 0x020000000000000000000000000000000010 = (0, false, [8, 524288, 65536])
      ∧ answerTo State.reset 0x020000000000000000000000000000000011 = (5, false, [])
      ∧ answerTo State.reset 0x020000000000000000000000000080000000 = (1, false, []) := by decide +kernel
/-- P1 commands 3 and 9: the dump after one ADD, and the second ADD changes no byte. -/
theorem test_add :
    tripleAfter (filterState params 4 []) 0x0310123e4567e89b42d3a456426614174000 = (true, 4, some storeP1)
      ∧ tripleAfter afterP1 0x0310123e4567e89b42d3a456426614174000 = (true, 4, some storeP1) := by decide +kernel
/-- Section 2.4: at `v = 2` each byte takes two bits in one ADD; `ADD ID_Z` gives 32 bytes `0x11`. -/
theorem test_add_shared_bytes :
    tripleAfter (filterState ⟨8, 16⟩ 2 []) 0x031000000000000000000000000000000000
      = (true, 2, some ((List.range 32).map fun a => (a, 0x11#8))) := by decide +kernel
/-- Section 2.4, HAS vectors: ID_A, ID_A2, ID_Z, and the identifier whose last group alone fails. -/
theorem test_has :
    answerTo afterP1 0x0410123e4567e89b42d3a456426614174000 = (0, true, [])
      ∧ answerTo afterP1 0x0410123e4567e89b12d32456426614174000 = (0, true, [])
      ∧ answerTo afterP1 0x041000000000000000000000000000000000 = (0, false, [])
      ∧ answerTo afterP1 0x0410123e4567e89b42d3a456426614174001 = (0, false, []) := by decide +kernel
/-- Section 2.6: state before operand, and the length check. -/
theorem test_has_errors :
    answerTo State.reset 0x0403123e4567e89b42d3a456426614174000 = (4, false, [])
      ∧ answerTo afterP1 0x040f123e4567e89b42d3a456426614174000 = (2, false, []) := by decide +kernel
/-- Section 2.3: `v = 16`, `ID_A`; and R150: `v = 5`, `ID_L`, groups that straddle bytes. -/
theorem test_derive :
    answerTo (filterState params 16 []) 0x0510123e4567e89b42d3a456426614174000
        = (0, false, [0x123e, 0x14567, 0x2e89b, 0x3c2d3, 0x4a456, 0x54266, 0x61417, 0x74000])
      ∧ answerTo (filterState params 5 []) 0x051001010101010140008000000000000000
        = (0, false, [0, 36, 64, 112, 130, 160, 200, 225, 256, 295, 344, 352, 385, 432, 448, 480, 512, 544, 576, 608,
          640, 672, 704, 736, 768]) := by decide +kernel
/-- Section 2.3: the largest variant, `v = 64`. -/
theorem test_derive_64 :
    derive 64 idA = [0x123e4567e89bc2d3, 0x1a456426614174000] ∧ derive 43 idA = [0x91f22b3f44, 0xef0b4e91590] := by
  decide +kernel
/-- Section 2.5: the registers after reset, and `OutOfRange`. -/
theorem test_rdcsr_after_reset :
    answerTo State.reset 0x060000000000000000000000000000000000 = (0, false, [0])
      ∧ answerTo State.reset 0x060000000000000000000000000000000006 = (0, false, [64])
      ∧ answerTo State.reset 0x060000000000000000000000000000000007 = (0, false, [16])
      ∧ answerTo State.reset 0x060000000000000000000000000000000008 = (6, false, []) := by decide +kernel
/-- Section 2.5: the registers after `INIT 5`. -/
theorem test_rdcsr_configured :
    [0, 1, 2, 3, 4, 5].map (fun n => answerTo (filterState params 5 []) (0x060000000000000000000000000000000000 + n))
      = [1, 5, 25, 800, 100, 2].map (fun x => (0, false, [x])) := by decide +kernel
/-- Section 2.5: `RDLEN 0`, `1`, `2` at `V = 5`, `MSS = 64`, and after reset. -/
theorem test_rdlen :
    answerTo (filterState params 5 []) 0x070000000000000000000000000000000000 = (0, false, [64])
      ∧ answerTo (filterState params 5 []) 0x070000000000000000010000000000000000 = (0, false, [36])
      ∧ answerTo (filterState params 5 []) 0x070000000000000000020000000000000000 = (6, false, [])
      ∧ answerTo State.reset 0x070000000000000000000000000000000000 = (4, false, []) := by decide +kernel
/-- P1 commands 7 and 8; section 2.5: an offset past the end of the last segment. -/
theorem test_rdbyte :
    answerTo afterP1 0x080000000000000000000000000000000007 = (0, false, [64])
      ∧ answerTo afterP1 0x080000000000000000000000000000000040 = (6, false, [])
      ∧ answerTo (filterState params 5 [(99, 128#8)]) 0x080000000000000000010000000000000023 = (0, false, [128])
      ∧ answerTo (filterState params 5 []) 0x080000000000000000010000000000000024 = (6, false, []) := by decide +kernel
/-- P5, the reset row: the filter is gone and the parameters stay. -/
theorem test_reset_event :
    step { afterP1 with inputs := [.rst] } = .next (State.afterReset params) := rfl
/-- P3 command 22: `INIT 4` with a reserved bit set changes nothing. -/
theorem test_illegal_word :
    answerTo afterP1 0x010000000000000000000001000000000004 = (3, false, [])
      ∧ tripleAfter afterP1 0x010000000000000000000001000000000004 = (true, 4, some storeP1) := by decide +kernel

/-! ### Functions -/

/-- Rows of the table of 40_configuration.md R106. -/
theorem test_variant_table :
    [2, 3, 4, 5, 13, 22, 43, 64].map (fun v => (groupCount v, bitCount v, bufferSize v))
      = [(64, 256, 32), (42, 336, 42), (32, 512, 64), (25, 800, 100), (9, 73728, 9216), (5, 20971520, 2621440),
        (2, 17592186044416, 2199023255552), (2, 36893488147419103232, 4611686018427387904)] := by decide +kernel
/-- Segment lists of 95_test_vectors.md section 2.1. -/
theorem test_segment_lists :
    segList 10 3 = [10, 10, 10, 10, 2] ∧ segList 31 2 = [31, 1] ∧ segList 64 5 = [64, 36]
      ∧ (List.range 5).map (segLen 10 3) = [10, 10, 10, 10, 2] ∧ segCount 1000000007 64 = 4611685987
      ∧ segLen 1000000007 64 4611685986 = 145586002 := by decide +kernel
/-- Substitution rows of section 2.2. -/
theorem test_substitution :
    bitString 0x00000001000000000000000000000000#128 = 0x00000001000080000000000000000000
      ∧ bitString 0x00000000000100000000000000000000#128 = 0x00000000000100008000000000000000
      ∧ bitString 0xfefefefefefeffffffffffffffffffff#128 = 0xfefefefefefe0fff3fffffffffffffff
      ∧ bitString 0x8080808080808f80bf80808080808080#128 = 0x8080808080800f803f80808080808080 := by decide +kernel
/-- `Locate` rows of section 2.4. -/
theorem test_locate :
    locate 64 799 = ⟨1, 35, 7⟩ ∧ locate 10 335 = ⟨4, 1, 7⟩
      ∧ locate 1000000007 1314564453825233619 = ⟨164320555, 577910317, 3⟩ := by decide +kernel
/-- R161. -/
theorem test_mask : (List.range 8).map mask = [0x01#8, 0x02#8, 0x04#8, 0x08#8, 0x10#8, 0x20#8, 0x40#8, 0x80#8] := by
  decide
/-- Group 1 of `ID_A` at `v = 5`, from bytes 0 and 1 (section 2.3, hand check). -/
theorem test_assemble_group : assembleGroup (substitutedByte idA) 5 1 = 8 := by decide +kernel
/-- Section 2.7. -/
theorem test_response_bytes :
    responseBytes { status := 0#4, flag := true, data := [] } = [0x01#8, 0x00#8]
      ∧ responseBytes { status := 6#4, flag := false, data := [] } = [0x60#8, 0x00#8]
      ∧ responseBytes { status := 0#4, flag := false, data := [0x40#128] }
        = [0#8, 1#8, 0#8, 0#8, 0#8, 0#8, 0#8, 0#8, 0#8, 0#8, 0#8, 0#8, 0#8, 0#8, 0#8, 0#8, 0#8, 0x40#8] := by
  decide +kernel
/-- Section 7 of 30_encoding.md. -/
theorem test_assemble :
    assemble "INIT -1" = some 0x0100000000000000000000000000ffffffff#144
      ∧ assemble "DERIVE 123e4567-e89b-42d3-a456-426614174000, len=15"
        = some 0x050f123e4567e89b42d3a456426614174000#144
      ∧ assemble "RDCSR K" = some 0x060000000000000000000000000000000002#144
      ∧ assemble "RDBYTE 1, 35 ; a comment" = some 0x080000000000000000010000000000000023#144
      ∧ assemble "NOP" = none := by decide +kernel
/-- The host's question about one word, for the table's `match` of RDBYTE. -/
theorem test_decode_table_word :
    decodeTableWord 144 0x080000000000000000000000000000000000 = some (.rdbyte 0 0)
      ∧ decodeTableWord 144 0 = none := by decide +kernel

/-! ### Witnesses: states and operands that meet the hypotheses of each statement, every clause at its boundary -/

/-- P1's unit with one more command presented. -/
def presented (i : Instr) : State := { afterP1 with inputs := [issue i] }

theorem witness_DecodeOfEncodeIsTheCommand :
    [Instr.init (-2 ^ 31), .desc (2 ^ 31 - 1), .add 255 idA, .has 0 idA, .derive 16 idA, .rdcsr 255,
      .rdlen (2 ^ 64 - 1), .rdbyte (2 ^ 64 - 1) (2 ^ 64 - 1)].all Instr.wf = true := by decide
theorem witness_LegalWordIsTheEncodingOfItsCommand :
    decode 0x0700ffffffffffffffff0000000000000000#144 = .legal (.rdlen (2 ^ 64 - 1)) := by decide
theorem witness_OpcodeMapSelectsTheDecodedCommand :
    ∀ r ∈ opcodeTable, r.matchWord &&& r.maskWord = r.matchWord := by decide
theorem witness_IllegalWordsAreTheReservedOnes_illegal :
    opOf 0x00ffffffffffffffffffffffffffffffffff#144 = 0x00#8
      ∧ 9 ≤ (opOf 0x090000000000000000000000000000000000#144).toNat
      ∧ 9 ≤ (opOf 0xff0000000000000000000000000000000000#144).toNat
      ∧ cwField 0x010000000000000000000000000100000004#144 32 96 ≠ 0#96
      ∧ auxOf 0x028000000000000000000000000000000004#144 ≠ 0#8
      ∧ cwField 0x060000000000000000000000000000000100#144 8 120 ≠ 0#120
      ∧ cwField 0x070000000000000000008000000000000000#144 0 64 ≠ 0#64
      ∧ auxOf 0x080100000000000000000000000000000000#144 ≠ 0#8 := by decide
theorem witness_IllegalWordsAreTheReservedOnes_legal :
    opOf 0x080000000000000000000000000000000000#144 = 0x08#8
      ∧ auxOf 0x080000000000000000000000000000000000#144 = 0#8 := by decide
theorem witness_CommandWordAsBytes :
    decodeBytes (bytesOfWord 0x080000000000000000010000000000000023#144)
        = decode 0x080000000000000000010000000000000023#144
      ∧ decode 0x080000000000000000010000000000000023#144 = .legal (.rdbyte 1 35) := by decide +kernel
theorem witness_VariantOperandIsSigned :
    decode 0x010000000000000000000000000080000000#144 = .legal (.init (-2 ^ 31))
      ∧ decode 0x02000000000000000000000000007fffffff#144 = .legal (.desc (2 ^ 31 - 1)) := by decide
theorem witness_IdentifierBytesAreCommandBytes :
    decode 0x0310123e4567e89b42d3a456426614174000#144 = .legal (.add 16 idA)
      ∧ decode 0x0403123e4567e89b42d3a456426614174000#144 = .legal (.has 3 idA)
      ∧ decode 0x0500123e4567e89b42d3a456426614174000#144 = .legal (.derive 0 idA) := by decide
theorem witness_StepRunsTheDecodedCommand :
    decode 0x010000000000000000000000000000000004#144 = .legal (.init 4)
      ∧ decodeTableWord 144 0x010000000000000000000000000000000004 = some (.init 4) := by decide +kernel
theorem witness_StepWithoutInputChangesNothing : State.reset.inputs = [] := rfl
theorem witness_ResetMeetsTheInvariant :
    (Config.mk 1 2).valid ∧ (Config.mk (2 ^ 64 - 1) 64).valid ∧ ¬(Config.mk 0 16).valid := by decide
theorem witness_StepKeepsTheInvariant :
    ∃ s t, Inv s ∧ s.cfg = true ∧ s.inputs ≠ [] ∧ step s = .next t :=
  ⟨presented (.add 16 idC), _, by decide +kernel, rfl, by decide, eq_next (by decide +kernel)⟩
theorem witness_ReachableStatesMeetTheInvariant : ∃ s, Reachable s ∧ s.cfg = true :=
  ⟨resultOf (step ((State.afterReset params).withInputs [issue (.init 4)])),
    .step _ _ (.present _ (issue (.init 4)) (.afterReset params (by decide))) (eq_next (by decide +kernel)),
    by decide +kernel⟩
theorem witness_EveryCommandCompletes : Inv State.reset ∧ Inv afterP1 := by decide +kernel
theorem witness_EveryCommandGivesOneResponse :
    ∃ t, Inv (presented (.has 16 idA)) ∧ (presented (.has 16 idA)).inputs = [.command (encode (.has 16 idA))]
      ∧ step (presented (.has 16 idA)) = .next t ∧ t.responses = [⟨0#4, true, []⟩] :=
  ⟨_, by decide +kernel, rfl, eq_next (by decide +kernel), by decide +kernel⟩
theorem witness_ParametersNeverChange : ∃ t, step (presented (.init 8)) = .next t :=
  ⟨_, eq_next (by decide +kernel)⟩
theorem witness_WhichCommandWritesWhichState :
    Inv afterP1 ∧ isNext (step { afterP1 with inputs := [.rst] }) = true
      ∧ [Instr.init 2, .init 16, .init 1, .init 17, .add 16 idC, .add 15 idC, .has 16 idC].all
          (fun i => decide (decode (encode i) = .legal i) && isNext (step (presented i))) = true := by
  decide +kernel
theorem witness_FailedCommandChangesNothing :
    ∃ t, exec (.rdbyte 1 0) afterP1 = .next t ∧ t.responses = afterP1.responses ++ [⟨6#4, false, []⟩] :=
  ⟨_, eq_next (by decide +kernel), by decide +kernel⟩
theorem witness_RepeatedFailedCommandFailsTheSameWay :
    ∃ t, exec (.add 17 idA) afterP1 = .next t ∧ t.responses = afterP1.responses ++ [⟨2#4, false, []⟩] :=
  ⟨_, eq_next (by decide +kernel), by decide +kernel⟩
theorem witness_CommandsReadOnlyTheUnit : ∃ t, exec (.add 16 idC) (presented (.init 2)) = .next t :=
  ⟨_, eq_next (by decide +kernel)⟩
/-- One variant for each clause: 1, 17 with `V_MAX = 16`, 2 and 16; and a word with a reserved bit. -/
theorem witness_InitBuildsAFilter :
    afterP1.config.valid ∧ (1 : Int) < 2 ∧ (afterP1.config.vMax : Int) < 17 ∧ (2 : Int) ≤ afterP1.config.vMax
      ∧ (16 : Int) ≤ afterP1.config.vMax ∧ opOf 0x010100000000000000000000000000000004#144 = 0x01#8
      ∧ auxOf 0x010100000000000000000000000000000004#144 ≠ 0#8 := by decide
theorem witness_DescDescribesAVariant :
    (-2 ^ 31 : Int) < 2 ∧ (State.reset.config.vMax : Int) < 17 ∧ (16 : Int) ≤ State.reset.config.vMax
      ∧ opOf 0x020000000000000000000000000100000004#144 = 0x02#8
      ∧ cwField 0x020000000000000000000000000100000004#144 32 96 ≠ 0#96 := by decide
theorem witness_NewFilterIsEmpty :
    ∃ t, afterP1.config.valid ∧ exec (.init 5) afterP1 = .next t
      ∧ 1 < segCount t.config.maxSegmentSize 5 ∧ 35 < segLen t.config.maxSegmentSize 5 1 :=
  ⟨_, by decide, eq_next (by decide +kernel), by decide +kernel, by decide +kernel⟩
theorem witness_BufferSizeIsExact : 2 ≤ 2 ∧ 3 ≤ 3 := by decide
theorem witness_SegmentListHasItsClosedForm :
    1 ≤ 1 ∧ 2 ≤ 2 ∧ 2 ≤ 128 ∧ 0 < segCount 1 2 ∧ 0 + 1 < segCount 1 2 ∧ bufferSize 2 ≤ 32 := by decide +kernel
theorem witness_SegmentLengthsSumToBufferSize : 1 ≤ 31 ∧ 2 ≤ 2 ∧ 1 < segCount 31 2 := by decide +kernel
theorem witness_QuantitiesStayInRange :
    2 ^ 64 - 1 < 2 ^ 64 ∧ 0 < segCount (2 ^ 64 - 1) 64 ∧ 36893488147419103231 ∈ derive 64 (BitVec.allOnes 128) := by
  decide +kernel
theorem witness_EntropySubstitution : 15 < 16 ∧ 15 ≠ 6 ∧ 15 ≠ 8 := by decide
theorem witness_BitStringIsBigEndian : 0 < 128 ∧ 127 < 128 := by decide
theorem witness_OverwrittenBitsNeverMatter :
    ∃ id id' : Identifier, id ≠ id'
      ∧ ∀ p, p < 128 → ¬(48 ≤ p ∧ p ≤ 51) → p ≠ 64 → p ≠ 65 → id.getMsbD p = id'.getMsbD p :=
  ⟨idA, 0x123e4567e89b12d32456426614174000#128, by decide, by decide +kernel⟩
theorem witness_GroupReadsItsPositions : 2 ≤ 2 ∧ 63 < 128 / 2 ∧ 64 ≤ 64 ∧ 1 < 128 / 64 := by decide
theorem witness_GroupAssembledFromBytes : 2 ≤ 5 ∧ 5 ≤ 64 ∧ 24 < 128 / 5 := by decide
theorem witness_IndicesLieInDisjointRanges : (derive 64 idA)[1]? = some 0x1a456426614174000 := by decide +kernel
/-- At `v = 5` the low three bits are the tail: equal indices; the fourth is read: different ones (section 2.3). -/
theorem witness_EqualIndicesExactlyWhenReadBitsAgree :
    derive 5 7#128 = derive 5 0#128 ∧ derive 5 8#128 ≠ derive 5 0#128 := by decide +kernel
theorem witness_DeriveReturnsTheIndices :
    State.reset.cfg = false ∧ afterP1.cfg = true ∧ 15 ≠ 16 ∧ 17 ≠ 16 ∧ Inv afterP1
      ∧ idA &&& 0xffffffffffff0fff3fffffffffffffff#128
        = 0x123e4567e89b12d32456426614174000#128 &&& 0xffffffffffff0fff3fffffffffffffff#128 := by decide +kernel
theorem witness_LocateIsABijection :
    locate 10 335 = locate 10 335 ∧ 4 < segCount 10 3 ∧ 1 < segLen 10 3 4 ∧ 7 < 8 := by decide +kernel
theorem witness_LocateStaysInTheStore : 1 ≤ 1 ∧ 2 ≤ 64 ∧ 2 ^ 65 - 1 < bitCount 64 := by decide +kernel
theorem witness_MemoryReadAfterWrite :
    Inv afterP1 ∧ afterP1.cfg = true ∧ 0 < segCount afterP1.config.maxSegmentSize afterP1.v.toNat
      ∧ 63 < segLen afterP1.config.maxSegmentSize afterP1.v.toNat 0 ∧ (0, 62) ≠ (0, 63) := by decide +kernel
/-- An index whose bit is set and one whose bit is clear. -/
theorem witness_BitSetSetsOneBit :
    Inv afterP1 ∧ 511 < bitCount afterP1.v.toNat ∧ bitTest afterP1 1 = some 1 ∧ bitTest afterP1 511 = some 0 := by
  decide +kernel
theorem witness_GroupsAndBytes :
    (derive 3 idC)[41]? = some 335 ∧ (derive 3 idC)[40]? = some 327 ∧ (derive 2 idD)[63]? = some 254 := by
  decide +kernel
theorem witness_AddSetsTheDerivedBits :
    State.reset.cfg = false ∧ afterP1.cfg = true ∧ 255 ≠ 16 ∧ Inv afterP1 := by decide +kernel
theorem witness_AddFrame :
    ∃ t, Inv afterP1 ∧ exec (.add 16 idC) afterP1 = .next t
      ∧ ∀ idx ∈ derive afterP1.v.toNat idC,
        flatAddress afterP1.config.maxSegmentSize (locate afterP1.config.maxSegmentSize idx).segment
          (locate afterP1.config.maxSegmentSize idx).offset ≠ 7 :=
  ⟨_, by decide +kernel, eq_next (by decide +kernel), by decide +kernel⟩
theorem witness_HasTestsTheDerivedBits :
    State.reset.cfg = false ∧ afterP1.cfg = true ∧ 0 ≠ 16 ∧ Inv afterP1
      ∧ Inv (filterState params 4 []) ∧ Empty 4 (filterState params 4 []) := by decide +kernel
/-- Between the ADD and the HAS: an ADD, a failing INIT and an illegal word. -/
theorem witness_NoFalseNegatives :
    let between : List HostInput := [issue (.add 16 idC), issue (.init 17), issue (.init 1), .command 0#144]
    let s : State := { afterP1 with inputs := issue (.add 16 idD) :: (between ++ [issue (.has 16 idD)]) }
    Inv s ∧ s.cfg = true ∧ ∀ input ∈ between, keepsFilter s.config input = true := by decide +kernel
theorem witness_AddIsIdempotentAndCommutes :
    ∃ t u t' u', Inv afterP1 ∧ afterP1.cfg = true ∧ exec (.add 16 idC) afterP1 = .next t
      ∧ exec (.add 16 idD) t = .next u ∧ exec (.add 16 idD) afterP1 = .next t' ∧ exec (.add 16 idC) t' = .next u' :=
  ⟨_, _, _, _, by decide +kernel, rfl, eq_next (by decide +kernel), eq_next (by decide +kernel),
    eq_next (by decide +kernel), eq_next (by decide +kernel)⟩
theorem witness_AddSequenceIsTheOrOfItsMasks :
    let s : State := { afterP1 with inputs := [idC, idD].map fun x => issue (.add 16 x) }
    Inv s ∧ s.cfg = true ∧ s.inputs.length = 2 := by decide +kernel
theorem witness_SetBitsStaySet :
    ∃ t, Inv (presented (.add 16 idC)) ∧ keepsFilter params (issue (.add 16 idC)) = true
      ∧ keepsFilter params .rst = false ∧ keepsFilter params (issue (.init 2)) = false
      ∧ step (presented (.add 16 idC)) = .next t ∧ storeBit (presented (.add 16 idC)) 62 = some 1 :=
  ⟨_, by decide +kernel, by decide +kernel, rfl, by decide +kernel, eq_next (by decide +kernel), by decide +kernel⟩
theorem witness_SegmentSizeIsInvisibleToAddAndHas :
    ∃ t t', Inv afterP1 ∧ exec (.add 16 idC) afterP1 = .next t ∧ exec (.has 16 idA) afterP1 = .next t' :=
  ⟨_, _, by decide +kernel, eq_next (by decide +kernel), eq_next (by decide +kernel)⟩
theorem witness_RdcsrReadsTheRegisterMap :
    7 < 8 ∧ 7 < 255 ∧ opOf 0x060000000000000000000000000000000100#144 = 0x06#8
      ∧ cwField 0x060000000000000000000000000000000100#144 8 120 ≠ 0#120 := by decide
/-- At `V = 5`, `MSS = 64` there are two segments, of 64 and 36 bytes. -/
theorem witness_RdlenReadsASegmentLength :
    State.reset.cfg = false ∧ segCount 64 5 ≤ 2 ∧ 1 < segCount 64 5
      ∧ Inv (filterState params 5 []) := by decide +kernel
theorem witness_RdbyteReadsAByte :
    Inv (filterState params 5 []) ∧ segCount 64 5 ≤ 2 ∧ 1 < segCount 64 5 ∧ segLen 64 5 1 ≤ 36
      ∧ 35 < segLen 64 5 1 ∧ Empty 5 (filterState params 5 []) := by decide +kernel
theorem witness_DiagnosticViewIsTheStore :
    ∃ view seg, Inv (filterState params 5 []) ∧ segView (filterState params 5 []) = some view
      ∧ view[1]? = some seg ∧ seg[35]? = some 0#8 :=
  ⟨_, List.replicate 36 0#8, by decide +kernel, rfl, by decide +kernel, by decide +kernel⟩
theorem witness_NotConfiguredComesFirst :
    ∃ t t' t'', State.reset.cfg = false ∧ exec (.init 4) State.reset = .next t
      ∧ exec (.desc 4) State.reset = .next t' ∧ exec (.rdcsr 0) State.reset = .next t'' :=
  ⟨_, _, _, rfl, eq_next (by decide +kernel), eq_next (by decide +kernel), eq_next (by decide +kernel)⟩
theorem witness_ResponseAsBytes :
    (List.replicate 64 0#128).length ≤ 64 ∧ (List.replicate 64 0#128)[63]? = some 0#128 ∧ 15 < 16 := by
  decide +kernel

end Sys2Proof.Tests
end

namespace Sys2Proof.Machine

/-! ### The parameters are no state of the unit (00_scope.md R5, R6) -/

/-- What a successful command does to the unit never reaches the parameters. -/
theorem successEffect_config {i : Instr} {s s' : State} (h : successEffect i s s') : s'.config = s.config := by
  rcases successEffect_seg h with rfl | ⟨v, -, -, rfl⟩ | ⟨m, idx, -, rfl⟩
  · rfl
  · exact constructFilter_config v s
  · exact State.withSeg_config s (setBitsOf m idx)

theorem exec_config {i : Instr} {s t : State} (h : exec i s = .next t) : t.config = s.config := by
  rcases exec_cases h with ⟨e, rfl⟩ | ⟨s', flag, data, heff, rfl⟩
  · exact State.answer_config s (errorResponse e)
  · exact (State.answer_config s' (okResponse flag data)).trans (successEffect_config heff)

theorem runCommand_config {cw : CommandWord} {s t : State} (h : runCommand cw s = .next t) :
    t.config = s.config := by
  rcases runCommand_cases h with ⟨-, -, rfl⟩ | ⟨i, -, hexec⟩
  · exact State.answer_config s (errorResponse .illegalCommand)
  · exact exec_config hexec

/-- The parameters survive every step, a reset among them (70_reset_and_hazards.md R242). -/
theorem step_config {s t : State} (h : step s = .next t) : t.config = s.config := by
  rcases step_cases h with ⟨-, rfl⟩ | ⟨rest, -, rfl⟩ | ⟨cw, rest, -, hrun⟩
  · rfl
  · exact (resetUnit_config (s.withInputs rest)).trans (State.withInputs_config s rest)
  · exact (runCommand_config hrun).trans (State.withInputs_config s rest)

/-- Settles O18: no case of a step writes the parameters. -/
theorem parametersNeverChange : Obligations.ParametersNeverChange :=
  fun _ _ h => step_config h

end Sys2Proof.Machine

namespace Sys2Proof.Machine

open Sys2Proof.Safety

/-! ### The unit after reset (10_state.md R36) -/

theorem exec_rdcsr_of_csr {n : Nat} {c : Csr} (h : csrOperand n = .ok c) (s : State) :
    exec (.rdcsr n) s = .next (answered s 0#4 false [zext128 (readCsr s c)]) := by
  show execRdcsr n s = _
  unfold execRdcsr
  rw [h]
  rfl

theorem whenConfigured_of_unconfigured {s : State} (hc : s.cfg = false) (x : Nat) : whenConfigured s x = 0 := by
  simp [whenConfigured, hc]

/-- Without a filter the CSRs read as the reset column of 10_state.md R29. -/
theorem csrsReadAsReset_of_unconfigured {s : State} (hc : s.cfg = false) : CsrsReadAsReset s := by
  refine ⟨fun n hn => ?_, exec_rdcsr_of_csr (c := .maxseg) rfl s,
    exec_rdcsr_of_csr (c := .vmax) rfl s⟩
  obtain ⟨c, hcsr, hread⟩ : ∃ c, csrOperand n = .ok c ∧ readCsr s c = 0 := by
    match n, hn with
    | 0, _ => exact ⟨.status, rfl, by simp [readCsr, hc]⟩
    | 1, _ => exact ⟨.variant, rfl, whenConfigured_of_unconfigured hc _⟩
    | 2, _ => exact ⟨.k, rfl, whenConfigured_of_unconfigured hc _⟩
    | 3, _ => exact ⟨.m, rfl, whenConfigured_of_unconfigured hc _⟩
    | 4, _ => exact ⟨.bufsz, rfl, whenConfigured_of_unconfigured hc _⟩
    | 5, _ => exact ⟨.nseg, rfl, whenConfigured_of_unconfigured hc _⟩
  rw [exec_rdcsr_of_csr hcsr, hread]
  rfl

/-- Settles O12: the state after reset is one without a filter. -/
theorem stateAfterReset : Obligations.StateAfterReset :=
  fun c => ⟨⟨rfl, rfl, rfl⟩, csrsReadAsReset_of_unconfigured (State.afterReset_cfg c), rfl, rfl⟩

/-! ### The invariants of 10_state.md R26 -/

theorem storeShape_iff {v : Nat} {seg : Option Memory} :
    storeShape v seg = true ↔ ∃ m, seg = some m ∧ m.wf = true ∧ m.below (bufferSize v) = true := by
  cases seg <;> simp [storeShape]

/-- A state without a filter meets the invariants when its parameters are in range. -/
theorem inv_of_afterReset {s : State} (hc : s.config.valid) (h : AfterReset s) : Inv s :=
  ⟨hc, fun _ => h, fun ht => absurd (h.1.symm.trans ht) (by simp)⟩

/-- The invariants speak of the parameters, `CFG`, `V` and `SEG`, so a response given does not touch them. -/
theorem inv_answer {s : State} (hs : Inv s) (r : Response) : Inv (s.answer r) := hs

/-- The invariants do not speak of what the host presents. -/
theorem inv_withInputs {s : State} (hs : Inv s) (inputs : List HostInput) : Inv (s.withInputs inputs) := hs

theorem inv_resetUnit {s : State} (hs : Inv s) : Inv (resetUnit s) :=
  inv_of_afterReset hs.1 ⟨rfl, rfl, rfl⟩

theorem inv_constructFilter {s : State} (hs : Inv s) {v : Nat} (h2 : 2 ≤ v) (hv : v ≤ s.config.vMax) :
    Inv (constructFilter v s) := by
  obtain ⟨hvalid, -, -⟩ := hs
  have ⟨_, _, _, hmax⟩ := hvalid
  have hvar : (constructFilter v s).variant = v := constructFilter_variant v s (by omega)
  have hshape : storeShape v (constructFilter v s).seg = true :=
    storeShape_iff.2 ⟨Memory.zeroFilled, rfl, Memory.wf_zeroFilled, rfl⟩
  exact ⟨hvalid, fun hc => absurd hc (by simp), fun _ => hvar.symm ▸ ⟨rfl, hvar, h2, hv, hshape⟩⟩

theorem inv_withSeg {s : State} {m : Memory} (hs : Inv s) (hc : s.cfg = true) (hwf : m.wf = true)
    (hbelow : m.below (bufferSize s.variant) = true) : Inv (s.withSeg m) := by
  obtain ⟨hvalid, -, hconf⟩ := hs
  obtain ⟨-, -, h2, hv, -⟩ := hconf hc
  exact ⟨hvalid, fun hf => absurd (hc.symm.trans hf) (by simp),
    fun _ => ⟨hc, rfl, h2, hv, storeShape_iff.2 ⟨m, rfl, hwf, hbelow⟩⟩⟩

/-- The store that the invariants give while there is a filter. -/
theorem seg_of_inv {s : State} (hs : Inv s) (hc : s.cfg = true) :
    ∃ m, s.seg = some m ∧ m.wf = true ∧ m.below (bufferSize s.variant) = true := by
  obtain ⟨-, -, hconf⟩ := hs
  obtain ⟨-, -, -, -, hshape⟩ := hconf hc
  exact storeShape_iff.1 hshape

/-- A cell of the store lies below `bufferSize(V)`: a segment that is not the last ends before the last byte
(40_configuration.md R109). -/
theorem flatAddress_lt_of_cellExists {s : State} {g o : Nat} (h : cellExists s g o = true) :
    flatAddress s.mss g o < bufferSize s.variant := by
  obtain ⟨-, hg, ho⟩ := cellExists_iff.1 h
  unfold flatAddress
  unfold segLen at ho
  split at ho
  next hnext =>
    have hpos : 0 < s.mss := by omega
    have hend : (g + 2) * s.mss ≤ bufferSize s.variant + s.mss - 1 := (Nat.le_div_iff_mul_le hpos).1 hnext
    rw [Nat.add_mul] at hend
    omega
  next => omega

theorem div_lt_of_indexExists {s : State} {i : Nat} (h : indexExists s i) : i / 8 < bufferSize s.variant := by
  simpa using flatAddress_lt_of_cellExists h

/-- What the bit sets of ADD leave from a state that meets the invariants: every index lies in the store, and the store
alone is new. -/
theorem bitSetAll_cases {s t : State} {idx : List Nat} (hs : Inv s) (hc : s.cfg = true)
    (h : bitSetAll idx s = some t) :
    ∃ m, s.seg = some m ∧ m.wf = true ∧ m.below (bufferSize s.variant) = true
      ∧ (∀ i ∈ idx, i / 8 < bufferSize s.variant) ∧ t = s.withSeg (setBitsOf m idx) := by
  obtain ⟨m, hm, hwf, hbelow⟩ := seg_of_inv hs hc
  obtain ⟨hall, rfl⟩ := (bitSetAll_eq_some hm).1 h
  exact ⟨m, hm, hwf, hbelow, fun i hi => div_lt_of_indexExists (hall i hi), rfl⟩

theorem inv_bitSetAll {s t : State} {idx : List Nat} (hs : Inv s) (hc : s.cfg = true)
    (h : bitSetAll idx s = some t) : Inv t := by
  obtain ⟨m, -, hwf, hbelow, hall, rfl⟩ := bitSetAll_cases hs hc h
  exact inv_withSeg hs hc (wf_setBitsOf hwf idx) (below_setBitsOf hbelow hall)

/-- Only INIT and ADD have an effect on the unit (10_state.md R30). -/
theorem successEffect_other {i : Instr} {s s' : State} (h : successEffect i s s')
    (hinit : ∀ var, i ≠ .init var) (hadd : ∀ n id, i ≠ .add n id) : s' = s := by
  cases i with
  | init var => exact absurd rfl (hinit var)
  | add n id => exact absurd rfl (hadd n id)
  | _ => exact h

theorem inv_successEffect {i : Instr} {s s' : State} (hs : Inv s) (h : successEffect i s s') : Inv s' := by
  cases i with
  | init var =>
    obtain ⟨h2, hv, rfl⟩ := h
    exact inv_constructFilter hs (by omega) (by omega)
  | add n id =>
    obtain ⟨hc, -, hset⟩ := h
    exact inv_bitSetAll hs hc hset
  | _ => exact successEffect_other h (by simp) (by simp) ▸ hs

theorem inv_exec {i : Instr} {s t : State} (hs : Inv s) (h : exec i s = .next t) : Inv t := by
  rcases exec_cases h with ⟨e, rfl⟩ | ⟨s', flag, data, heff, rfl⟩
  · exact inv_answer hs (errorResponse e)
  · exact inv_answer (inv_successEffect hs heff) (okResponse flag data)

theorem inv_runCommand {cw : CommandWord} {s t : State} (hs : Inv s) (h : runCommand cw s = .next t) : Inv t := by
  rcases runCommand_cases h with ⟨-, -, rfl⟩ | ⟨i, -, hexec⟩
  · exact inv_answer hs (errorResponse .illegalCommand)
  · exact inv_exec hs hexec

theorem inv_step {s t : State} (hs : Inv s) (h : step s = .next t) : Inv t := by
  rcases step_cases h with ⟨-, rfl⟩ | ⟨rest, -, rfl⟩ | ⟨cw, rest, -, hrun⟩
  · exact hs
  · exact inv_resetUnit (inv_withInputs hs rest)
  · exact inv_runCommand (inv_withInputs hs rest) hrun

/-- Settles O14: reset, INIT and the bit sets of ADD each keep the invariants, and nothing else writes the triple. -/
theorem stepKeepsTheInvariant : Obligations.StepKeepsTheInvariant :=
  fun _ _ hs h => inv_step hs h

theorem inv_afterReset {c : Config} (hc : c.valid) : Inv (State.afterReset c) :=
  inv_of_afterReset hc ⟨rfl, rfl, rfl⟩

/-- Settles O13: after reset there is no filter, and the nominal parameters are in range. -/
theorem resetMeetsTheInvariant : Obligations.ResetMeetsTheInvariant :=
  ⟨fun _ inputs hc => inv_withInputs (inv_afterReset hc) inputs, inv_afterReset (by decide)⟩

/-- Settles O15, by induction on how the state was reached. -/
theorem reachableStatesMeetTheInvariant : Obligations.ReachableStatesMeetTheInvariant := by
  intro s hs
  induction hs with
  | afterReset c hc => exact inv_afterReset hc
  | present s input _ ih => exact inv_withInputs ih (s.inputs ++ [input])
  | step s t _ ht ih => exact inv_step ih ht

/-! ### The bits that ADD sets (42_bit_access.md R164, R166) -/

theorem bitOfNat_eq_testBit (x j : Nat) : bitOfNat x j = (x.testBit j).toNat :=
  (Nat.toNat_testBit x j).symm

/-- ORing a mask in sets its bit and keeps every other bit of the byte. -/
theorem bitOfNat_or_mask (x : Byte) {b c : Nat} (hc : c < 8) :
    bitOfNat (x ||| mask b).toNat c = if c = b then 1 else bitOfNat x.toNat c := by
  have hmask : (mask b).toNat.testBit c = decide (b = c) := by
    rw [mask, BitVec.toNat_ofNat, Nat.testBit_mod_two_pow, Nat.testBit_two_pow]
    simp [hc]
  rw [bitOfNat_eq_testBit, bitOfNat_eq_testBit, BitVec.toNat_or, Nat.testBit_or, hmask]
  by_cases h : c = b
  · simp [h]
  · simp [h, Ne.symm h]

theorem bit_setBitOf {m : Memory} (hwf : m.wf = true) (i j : Nat) :
    bitOfNat (Memory.read (setBitOf m i) (j / 8)).toNat (j % 8)
      = if j = i then 1 else bitOfNat (Memory.read m (j / 8)).toNat (j % 8) := by
  rw [read_setBitOf hwf]
  by_cases hbyte : j / 8 = i / 8
  · have hbit : j % 8 = i % 8 ↔ j = i := by omega
    rw [if_pos hbyte, bitOfNat_or_mask _ (Nat.mod_lt j (by decide))]
    simp only [hbit]
  · have hne : j ≠ i := fun h => hbyte (h ▸ rfl)
    rw [if_neg hbyte, if_neg hne]

/-- After the bit sets of ADD a bit is 1 when its index is among those set, and as before otherwise. -/
theorem bit_setBitsOf {m : Memory} (hwf : m.wf = true) (idx : List Nat) (j : Nat) :
    bitOfNat (Memory.read (setBitsOf m idx) (j / 8)).toNat (j % 8)
      = if j ∈ idx then 1 else bitOfNat (Memory.read m (j / 8)).toNat (j % 8) := by
  induction idx generalizing m with
  | nil => simp
  | cons i rest ih =>
    rw [setBitsOf_cons, ih (wf_setBitOf hwf i), bit_setBitOf hwf]
    by_cases hrest : j ∈ rest <;> simp [hrest]

/-- A byte in which no index lies is unchanged. -/
theorem read_setBitsOf_of_forall_ne {m : Memory} (hwf : m.wf = true) {idx : List Nat} {a : Nat}
    (h : ∀ i ∈ idx, i / 8 ≠ a) : Memory.read (setBitsOf m idx) a = Memory.read m a := by
  induction idx generalizing m with
  | nil => rfl
  | cons i rest ih =>
    obtain ⟨hi, hrest⟩ := List.forall_mem_cons.1 h
    rw [setBitsOf_cons, ih (wf_setBitOf hwf i) hrest, read_setBitOf hwf, if_neg hi.symm]

/-! ### The views of the store -/

theorem flatByte_eq {s : State} {m : Memory} (hc : s.cfg = true) (hm : s.seg = some m) (a : Nat) :
    flatByte s a = if a < bufferSize s.variant then some (Memory.read m a) else none := by
  simp [flatByte, hc, hm]

theorem storeBit_eq {s : State} {m : Memory} (hc : s.cfg = true) (hm : s.seg = some m) (j : Nat) :
    storeBit s j =
      if j / 8 < bufferSize s.variant then some (bitOfNat (Memory.read m (j / 8)).toNat (j % 8)) else none := by
  rw [storeBit, flatByte_eq hc hm]
  split <;> rfl

@[simp] theorem flatByte_answer (s : State) (r : Response) (a : Nat) : flatByte (s.answer r) a = flatByte s a := rfl

@[simp] theorem storeBit_answer (s : State) (r : Response) (j : Nat) : storeBit (s.answer r) j = storeBit s j := rfl

theorem flatByte_withSeg {s : State} (hc : s.cfg = true) (m : Memory) (a : Nat) :
    flatByte (s.withSeg m) a = if a < bufferSize s.variant then some (Memory.read m a) else none :=
  flatByte_eq (s := s.withSeg m) hc rfl a

theorem storeBit_withSeg {s : State} (hc : s.cfg = true) (m : Memory) (j : Nat) :
    storeBit (s.withSeg m) j =
      if j / 8 < bufferSize s.variant then some (bitOfNat (Memory.read m (j / 8)).toNat (j % 8)) else none :=
  storeBit_eq (s := s.withSeg m) hc rfl j

/-! ### Which command writes which state (10_state.md R30) -/

/-- `CFG`, `V` and `SEG` of the two states are the same. -/
def SameUnit (s t : State) : Prop := t.cfg = s.cfg ∧ t.v = s.v ∧ t.seg = s.seg

theorem sameUnit_answer (s : State) (r : Response) : SameUnit s (s.answer r) := ⟨rfl, rfl, rfl⟩

theorem execInit_writes {var : Int} {s t : State} (hs : Inv s) (h : execInit var s = .next t) :
    if 2 ≤ var ∧ var ≤ s.config.vMax then
      t.cfg = true ∧ (t.v.toNat : Int) = var ∧ ∀ a, a < bufferSize var.toNat → flatByte t a = some 0#8
    else SameUnit s t := by
  rcases execInit_cases h with ⟨e, he, rfl⟩ | ⟨h2, hv, rfl⟩
  · have hrange : ¬(2 ≤ var ∧ var ≤ s.config.vMax) := by
      rcases variantOperand_eq_error.1 he with ⟨hlow, -⟩ | ⟨-, hhigh, -⟩ <;> omega
    rw [if_neg hrange]
    exact sameUnit_answer s (errorResponse e)
  · rw [if_pos ⟨h2, hv⟩]
    obtain ⟨⟨-, -, -, hmax⟩, -, -⟩ := hs
    have hvar : (constructFilter var.toNat s).variant = var.toNat := constructFilter_variant _ s (by omega)
    refine ⟨rfl, ?_, fun a ha => ?_⟩
    · show ((constructFilter var.toNat s).variant : Int) = var
      omega
    · rw [flatByte_eq (m := Memory.zeroFilled) rfl rfl, State.answer_variant, hvar, if_pos ha]
      rfl

theorem execAdd_writes {n : Nat} {id : Identifier} {s t : State} (hs : Inv s) (h : execAdd n id s = .next t) :
    t.cfg = s.cfg ∧ t.v = s.v ∧ (s.cfg = false ∨ n ≠ 16 → t.seg = s.seg)
      ∧ ∀ idx, storeBit t idx = storeBit s idx
        ∨ (s.cfg = true ∧ n = 16 ∧ idx ∈ derive s.variant id ∧ storeBit t idx = some 1) := by
  rcases execAdd_cases h with ⟨e, -, rfl⟩ | ⟨hc, hn, s', hset, rfl⟩
  · exact ⟨rfl, rfl, fun _ => rfl, fun _ => .inl rfl⟩
  · obtain ⟨m, hm, hwf, -, hall, rfl⟩ := bitSetAll_cases hs hc hset
    refine ⟨rfl, rfl, fun hfail => ?_, fun idx => ?_⟩
    · rcases hfail with hf | hne
      · exact absurd (hc.symm.trans hf) (by simp)
      · exact absurd hn hne
    · rw [storeBit_answer, storeBit_withSeg hc, bit_setBitsOf hwf, storeBit_eq hc hm]
      by_cases hidx : idx ∈ derive s.variant id
      · exact .inr ⟨hc, hn, hidx, by simp [hidx, hall idx hidx]⟩
      · exact .inl (by simp [hidx])

/-- A word that decodes to neither INIT nor ADD, an illegal one among them, leaves the triple as it was. -/
theorem runCommand_sameUnit {cw : CommandWord} {s t : State} (h : runCommand cw s = .next t)
    (hinit : ∀ var, decode cw ≠ .legal (.init var)) (hadd : ∀ n id, decode cw ≠ .legal (.add n id)) :
    SameUnit s t := by
  rcases runCommand_cases h with ⟨-, -, rfl⟩ | ⟨i, hi, hexec⟩
  · exact sameUnit_answer s (errorResponse .illegalCommand)
  · rcases exec_cases hexec with ⟨e, rfl⟩ | ⟨s', flag, data, heff, rfl⟩
    · exact sameUnit_answer s (errorResponse e)
    · obtain rfl := successEffect_other heff (fun var hvar => hinit var (hvar ▸ hi))
        (fun n id hid => hadd n id (hid ▸ hi))
      exact sameUnit_answer s' (okResponse flag data)

theorem step_rst {s t : State} {rest : List HostInput} (hin : s.inputs = .rst :: rest) (h : step s = .next t) :
    t = resetUnit (s.withInputs rest) := by
  simpa [step, hin, runInput] using h.symm

theorem step_command {s : State} {cw : CommandWord} {rest : List HostInput} (hin : s.inputs = .command cw :: rest) :
    step s = runCommand cw (s.withInputs rest) := by
  simp only [step, hin, runInput]

theorem runCommand_of_legal {cw : CommandWord} {i : Instr} (h : decode cw = .legal i) (s : State) :
    runCommand cw s = exec i s := by
  simp only [runCommand, h]

/-- Settles O19: one lemma for each row of the table of 10_state.md R30. -/
theorem whichCommandWritesWhichState : Obligations.WhichCommandWritesWhichState := by
  intro s t input rest hs hin h
  refine ⟨?_, ?_⟩
  · rintro rfl
    obtain rfl := step_rst hin h
    exact ⟨rfl, rfl, rfl⟩
  · rintro cw rfl
    rw [step_command hin] at h
    have hrest : Inv (s.withInputs rest) := inv_withInputs hs rest
    refine ⟨fun var hdec => ?_, fun n id hdec => ?_, fun hinit hadd => ?_⟩
    · rw [runCommand_of_legal hdec] at h
      exact execInit_writes (s := s.withInputs rest) hrest h
    · rw [runCommand_of_legal hdec] at h
      exact execAdd_writes (s := s.withInputs rest) hrest h
    · exact runCommand_sameUnit (s := s.withInputs rest) h hinit hadd

/-! ### The frame of ADD (42_bit_access.md R165) -/

theorem execAdd_flatByte_of_forall_ne {n : Nat} {id : Identifier} {s t : State} {a : Nat} (hs : Inv s)
    (h : execAdd n id s = .next t) (ha : ∀ i ∈ derive s.variant id, i / 8 ≠ a) : flatByte t a = flatByte s a := by
  rcases execAdd_cases h with ⟨e, -, rfl⟩ | ⟨hc, -, s', hset, rfl⟩
  · rfl
  · obtain ⟨m, hm, hwf, -, -, rfl⟩ := bitSetAll_cases hs hc hset
    rw [flatByte_answer, flatByte_withSeg hc, read_setBitsOf_of_forall_ne hwf ha, flatByte_eq hc hm]

theorem execAdd_inputs {n : Nat} {id : Identifier} {s t : State} (h : execAdd n id s = .next t) :
    t.inputs = s.inputs := by
  rcases execAdd_cases h with ⟨e, -, rfl⟩ | ⟨-, -, s', hset, rfl⟩
  · rfl
  · rcases bitSetAll_frame hset with rfl | ⟨m, -, rfl⟩ <;> rfl

/-- Settles O46: the byte the segment selector gives for an index is the one the index lies in. -/
theorem addFrame : Obligations.AddFrame := by
  intro s t id hs h
  obtain ⟨hcfg, hv, -, -⟩ := execAdd_writes hs h
  refine ⟨exec_config h, hcfg, hv, execAdd_inputs h, fun a ha => ?_⟩
  simp only [flatAddress_locate] at ha
  exact execAdd_flatByte_of_forall_ne hs h ha

/-! ### No command reads the log or the waiting inputs (10_state.md R33, 60_exceptions.md R220) -/

/-- The state with another log of responses and other inputs waiting. -/
def State.withPorts (s : State) (log : List Response) (waiting : List HostInput) : State :=
  { s with responses := log, inputs := waiting }

section withPorts
variable (s : State) (log : List Response) (waiting : List HostInput)

@[simp] theorem State.withPorts_config : (s.withPorts log waiting).config = s.config := rfl

@[simp] theorem State.withPorts_mss : (s.withPorts log waiting).mss = s.mss := rfl

@[simp] theorem cellExists_withPorts (g o : Nat) :
    cellExists (s.withPorts log waiting) g o = cellExists s g o := rfl

@[simp] theorem identifierOperand_withPorts (idLen : Nat) (id : Identifier) :
    identifierOperand idLen id (s.withPorts log waiting) = identifierOperand idLen id s := rfl

@[simp] theorem segmentOperand_withPorts (segi : Nat) :
    segmentOperand segi (s.withPorts log waiting) = segmentOperand segi s := rfl

@[simp] theorem cellOperand_withPorts (segi off : Nat) :
    cellOperand segi off (s.withPorts log waiting) = cellOperand segi off s := rfl

@[simp] theorem memRead_withPorts (g o : Nat) : memRead (s.withPorts log waiting) g o = memRead s g o := rfl

@[simp] theorem bitTest_withPorts (i : Nat) : bitTest (s.withPorts log waiting) i = bitTest s i := rfl

@[simp] theorem allBitsSet_withPorts (idx : List Nat) :
    allBitsSet (s.withPorts log waiting) idx = allBitsSet s idx := by
  induction idx with
  | nil => rfl
  | cons i rest ih => rw [allBitsSet, allBitsSet, bitTest_withPorts, ih]

theorem memWrite_withPorts (g o : Nat) (x : Byte) :
    memWrite (s.withPorts log waiting) g o x = (memWrite s g o x).map (·.withPorts log waiting) := by
  unfold memWrite
  rw [cellExists_withPorts]
  split
  · rw [Option.map_map]
    rfl
  · rfl

theorem bitSet_withPorts (i : Nat) :
    bitSet (s.withPorts log waiting) i = (bitSet s i).map (·.withPorts log waiting) := by
  simp only [bitSet, State.withPorts_mss, memRead_withPorts]
  split
  · exact memWrite_withPorts ..
  · rfl

theorem bitSetAll_withPorts (idx : List Nat) :
    bitSetAll idx (s.withPorts log waiting) = (bitSetAll idx s).map (·.withPorts log waiting) := by
  induction idx generalizing s with
  | nil => rfl
  | cons i rest ih =>
    rw [bitSetAll, bitSetAll, bitSet_withPorts]
    cases bitSet s i with
    | none => rfl
    | some s' => exact ih s'

/-- The result `y` is `x` with one response more after the other log and with the other inputs waiting. -/
def AnswersAlike (x y : Result) : Prop :=
  ∀ t, x = .next t → ∃ r : Response, t.responses = s.responses ++ [r] ∧ t.inputs = s.inputs
    ∧ y = .next (t.withPorts (log ++ [r]) waiting)

variable {s log waiting}

theorem answersAlike_answer {s' : State} (hlog : s'.responses = s.responses) (hin : s'.inputs = s.inputs)
    (r : Response) :
    AnswersAlike s log waiting (.next (s'.answer r)) (.next ((s'.withPorts log waiting).answer r)) := by
  rintro t ⟨⟩
  exact ⟨r, congrArg (· ++ [r]) hlog, hin, rfl⟩

theorem answersAlike_fault (e : Fault) (y : Result) : AnswersAlike s log waiting (.fault e) y := by
  rintro t ⟨⟩

end withPorts

/-- The operand checks and the memory reads of a command see the unit alone, so with another log and other inputs waiting
it takes the same branch. -/
theorem exec_answersAlike (i : Instr) (s : State) (log : List Response) (waiting : List HostInput) :
    AnswersAlike s log waiting (exec i s) (exec i (s.withPorts log waiting)) := by
  cases i with
  | init var =>
    simp only [exec, execInit, State.withPorts_config]
    cases variantOperand s.config var with
    | error e => exact answersAlike_answer rfl rfl _
    | ok v => exact answersAlike_answer (s' := constructFilter v s) rfl rfl _
  | desc var =>
    simp only [exec, execDesc, State.withPorts_config]
    cases variantOperand s.config var <;> exact answersAlike_answer rfl rfl _
  | add n id =>
    simp only [exec, execAdd, identifierOperand_withPorts, bitSetAll_withPorts]
    cases identifierOperand n id s with
    | error e => exact answersAlike_answer rfl rfl _
    | ok idx =>
      dsimp only
      cases hset : bitSetAll idx s with
      | none => exact answersAlike_fault _ _
      | some s' =>
        rcases bitSetAll_frame hset with rfl | ⟨m, -, rfl⟩ <;> exact answersAlike_answer rfl rfl _
  | has n id =>
    simp only [exec, execHas, identifierOperand_withPorts, allBitsSet_withPorts]
    cases identifierOperand n id s with
    | error e => exact answersAlike_answer rfl rfl _
    | ok idx =>
      dsimp only
      cases allBitsSet s idx with
      | none => exact answersAlike_fault _ _
      | some flag => exact answersAlike_answer rfl rfl _
  | derive n id =>
    simp only [exec, execDerive, identifierOperand_withPorts]
    cases identifierOperand n id s <;> exact answersAlike_answer rfl rfl _
  | rdcsr n =>
    simp only [exec, execRdcsr]
    cases csrOperand n <;> exact answersAlike_answer rfl rfl _
  | rdlen segi =>
    simp only [exec, execRdlen, segmentOperand_withPorts]
    cases segmentOperand segi s <;> exact answersAlike_answer rfl rfl _
  | rdbyte segi off =>
    simp only [exec, execRdbyte, cellOperand_withPorts, memRead_withPorts]
    cases cellOperand segi off s with
    | error e => exact answersAlike_answer rfl rfl _
    | ok u =>
      dsimp only
      cases memRead s segi off with
      | none => exact answersAlike_fault _ _
      | some x => exact answersAlike_answer rfl rfl _

/-- Settles O22: each command answers alike on the two states, with the same response and the same effect. -/
theorem commandsReadOnlyTheUnit : Obligations.CommandsReadOnlyTheUnit :=
  fun i s t log waiting h => exec_answersAlike i s log waiting t h

end Sys2Proof.Machine

namespace Sys2Proof.Machine

open Sys2Proof.Safety

/-! ### The cells of the store (40_configuration.md R109) -/

theorem lt_segCount_iff {mss v g : Nat} (hmss : 0 < mss) : g < segCount mss v ↔ g * mss < bufferSize v := by
  rw [segCount, Nat.lt_iff_add_one_le, Nat.le_div_iff_mul_le hmss, Nat.add_one_mul]
  omega

/-- A segment is full, or it holds the bytes that are left. -/
theorem segLen_eq_min {mss : Nat} (hmss : 0 < mss) (v g : Nat) : segLen mss v g = min mss (bufferSize v - g * mss) := by
  have hnext : g + 1 < segCount mss v ↔ g * mss + mss < bufferSize v := by
    rw [lt_segCount_iff hmss, Nat.add_one_mul]
  unfold segLen
  split <;> omega

/-- The cells are the offsets within one segment size whose flat address lies in the buffer. -/
theorem cell_iff_flatAddress_lt {mss v g o : Nat} (hmss : 0 < mss) :
    g < segCount mss v ∧ o < segLen mss v g ↔ o < mss ∧ flatAddress mss g o < bufferSize v := by
  rw [lt_segCount_iff hmss, segLen_eq_min hmss, flatAddress]
  omega

theorem flatAddress_div {mss o : Nat} (ho : o < mss) (g : Nat) : flatAddress mss g o / mss = g := by
  rw [flatAddress, Nat.add_comm, Nat.add_mul_div_right o g (by omega), Nat.div_eq_of_lt ho, Nat.zero_add]

theorem flatAddress_mod {mss o : Nat} (ho : o < mss) (g : Nat) : flatAddress mss g o % mss = o := by
  rw [flatAddress, Nat.mul_add_mod', Nat.mod_eq_of_lt ho]

/-- Different cells have different flat addresses. -/
theorem flatAddress_injective {mss g o g' o' : Nat} (ho : o < mss) (ho' : o' < mss)
    (h : flatAddress mss g o = flatAddress mss g' o') : (g, o) = (g', o') := by
  have hg : g = g' := by rw [← flatAddress_div ho g, h, flatAddress_div ho']
  have hoff : o = o' := by rw [← flatAddress_mod ho g, h, flatAddress_mod ho']
  rw [hg, hoff]

/-! ### The segment selector (20_memory.md R42 to R44, R48) -/

@[simp] theorem locationIndex_locate (mss idx : Nat) : locationIndex mss (locate mss idx) = idx := by
  have hbyte := flatAddress_locate mss idx
  unfold flatAddress at hbyte
  rw [locationIndex, hbyte, locate_bit, Nat.div_add_mod]

theorem locate_injective (mss : Nat) : Function.Injective (locate mss) :=
  Function.LeftInverse.injective (locationIndex_locate mss)

theorem locate_locationIndex {mss : Nat} {l : Location} (ho : l.offset < mss) (hb : l.bit < 8) :
    locate mss (locationIndex mss l) = l := by
  have hbyte : locationIndex mss l / 8 = flatAddress mss l.segment l.offset := by
    unfold locationIndex flatAddress; omega
  have hbit : locationIndex mss l % 8 = l.bit := by unfold locationIndex; omega
  rw [locate, hbyte, hbit, flatAddress_div ho, flatAddress_mod ho]

/-- The store is a whole number of bytes (40_configuration.md R104). -/
theorem eight_dvd_bitCount {v : Nat} (h2 : 2 ≤ v) : 8 ∣ bitCount v := by
  obtain rfl | h3 : v = 2 ∨ 3 ≤ v := by omega
  · decide
  · exact Dvd.dvd.mul_left (pow_dvd_pow 2 h3) (groupCount v)

theorem div_lt_bufferSize {v idx : Nat} (h2 : 2 ≤ v) (h : idx < bitCount v) : idx / 8 < bufferSize v :=
  Nat.div_lt_div_of_lt_of_dvd (eight_dvd_bitCount h2) h

theorem locationIndex_lt_bitCount {mss v : Nat} {l : Location}
    (h : flatAddress mss l.segment l.offset < bufferSize v) (hb : l.bit < 8) : locationIndex mss l < bitCount v := by
  unfold flatAddress bufferSize at h
  unfold locationIndex
  omega

/-- Settles O39: `locationIndex` inverts `locate`, and the cells are the flat addresses below `bufferSize(v)`. -/
theorem locateIsABijection : Obligations.LocateIsABijection := by
  intro mss v hmss _ _
  refine ⟨locationIndex_locate mss, fun _ _ h => locate_injective mss h, fun g o b hg ho hb => ?_⟩
  obtain ⟨hoff, hflat⟩ := (cell_iff_flatAddress_lt hmss).1 ⟨hg, ho⟩
  exact ⟨locationIndex_lt_bitCount (l := ⟨g, o, b⟩) hflat hb, locate_locationIndex (l := ⟨g, o, b⟩) hoff hb⟩

/-- Settles O40: the byte of the index lies below `bufferSize(v)`, so its segment address is a cell. -/
theorem locateStaysInTheStore : Obligations.LocateStaysInTheStore := by
  intro mss v idx hmss h2 _ hidx
  have hoff : (locate mss idx).offset < mss := Nat.mod_lt _ hmss
  have hflat : flatAddress mss (locate mss idx).segment (locate mss idx).offset < bufferSize v := by
    rw [flatAddress_locate]
    exact div_lt_bufferSize h2 hidx
  obtain ⟨hseg, hlen⟩ := (cell_iff_flatAddress_lt hmss).2 ⟨hoff, hflat⟩
  exact ⟨hseg, hlen, Nat.mod_lt idx (by decide)⟩

/-- Settles O41: dividing by 8 and then by `2 ^ p` drops `p + 3` bits. -/
theorem powerOfTwoSelectorIsWiring : Obligations.PowerOfTwoSelectorIsWiring := by
  intro p idx
  have hseg : idx / 8 / 2 ^ p = idx / 2 ^ (p + 3) := by
    rw [Nat.div_div_eq_div_mul, Nat.mul_comm, Nat.pow_add]
  rw [locate, hseg]

/-! ### Reading and writing the store (20_memory.md R46, R47) -/

theorem memRead_eq {s : State} {m : Memory} (hm : s.seg = some m) (g o : Nat) :
    memRead s g o = if cellExists s g o then some (Memory.read m (flatAddress s.mss g o)) else none := by
  rw [memRead, hm, Option.map_some]

theorem memRead_withSeg (s : State) (m : Memory) (g o : Nat) :
    memRead (s.withSeg m) g o = if cellExists s g o then some (Memory.read m (flatAddress s.mss g o)) else none :=
  memRead_eq (s := s.withSeg m) rfl g o

theorem offset_lt_mss_of_cellExists {s : State} {g o : Nat} (hmss : 0 < s.mss) (h : cellExists s g o = true) :
    o < s.mss := by
  obtain ⟨-, hcell⟩ := cellExists_iff.1 h
  exact ((cell_iff_flatAddress_lt hmss).1 hcell).1

/-- A write to one cell is not seen at another. -/
theorem memRead_write_of_ne {s : State} {m : Memory} {g o g' o' : Nat} (x : Byte) (hmss : 0 < s.mss)
    (hm : s.seg = some m) (hwf : m.wf = true) (hcell : cellExists s g o = true) (hne : (g', o') ≠ (g, o)) :
    memRead (s.withSeg (Memory.write m (flatAddress s.mss g o) x)) g' o' = memRead s g' o' := by
  rw [memRead_withSeg, memRead_eq hm]
  by_cases hcell' : cellExists s g' o' = true
  · have haddr : flatAddress s.mss g' o' ≠ flatAddress s.mss g o := fun h =>
      hne (flatAddress_injective (offset_lt_mss_of_cellExists hmss hcell') (offset_lt_mss_of_cellExists hmss hcell) h)
    rw [Memory.read_write hwf, if_neg haddr]
  · rw [if_neg hcell', if_neg hcell']

/-- Settles O42: `MemWrite` replaces the byte at one flat address, and no other cell has that address. -/
theorem memoryReadAfterWrite : Obligations.MemoryReadAfterWrite := by
  intro s g o x hs hc hg ho
  have ⟨⟨hmss, _⟩, _⟩ := hs
  obtain ⟨m, hm, hwf, hbelow⟩ := seg_of_inv hs hc
  have hcell : cellExists s g o = true := cellExists_iff.2 ⟨hc, hg, ho⟩
  have hbelow' := Memory.below_write (x := x) (flatAddress_lt_of_cellExists hcell) hbelow
  refine ⟨_, memWrite_eq_some.2 ⟨hcell, m, hm, rfl⟩, inv_withSeg hs hc (Memory.wf_write hwf) hbelow', rfl, ?_,
    fun g' o' hne => memRead_write_of_ne x hmss hm hwf hcell hne⟩
  rw [memRead_withSeg, if_pos hcell, Memory.read_write hwf, if_pos rfl]

/-! ### The bytes of a group (20_memory.md R61) -/

theorem index_div (v w i : Nat) : index v w i / 2 ^ v = i := by
  have hgroup : group v w i < 2 ^ v := Nat.mod_lt _ (Nat.two_pow_pos v)
  rw [index, Nat.add_mul_div_right _ _ (Nat.two_pow_pos v), Nat.div_eq_of_lt hgroup, Nat.zero_add]

theorem derive_getElem?_eq_some {v i x : Nat} {id : Identifier} :
    (derive v id)[i]? = some x ↔ i < groupCount v ∧ index v (bitString id) i = x := by
  simp [derive, indices, List.getElem?_eq_some_iff]

/-- The group of an index is its quotient by `2 ^ v` (41_index_derivation.md R144). -/
theorem div_of_derive_getElem? {v i x : Nat} {id : Identifier} (h : (derive v id)[i]? = some x) : x / 2 ^ v = i := by
  obtain ⟨-, rfl⟩ := derive_getElem?_eq_some.1 h
  exact index_div v (bitString id) i

/-- For `v >= 3` a group is `2 ^ (v - 3)` whole bytes. -/
theorem two_pow_eq_eight_mul {v : Nat} (h3 : 3 ≤ v) : 2 ^ v = 8 * 2 ^ (v - 3) := by
  rw [show (8 : Nat) = 2 ^ 3 from rfl, ← Nat.pow_add, Nat.add_sub_cancel' h3]

/-- For `v >= 3` the byte of an index determines its group. -/
theorem byte_div_of_derive_getElem? {v i x : Nat} {id : Identifier} (h3 : 3 ≤ v) (h : (derive v id)[i]? = some x) :
    x / 8 / 2 ^ (v - 3) = i := by
  rw [Nat.div_div_eq_div_mul, ← two_pow_eq_eight_mul h3]
  exact div_of_derive_getElem? h

theorem mul_two_pow_div_eight {v : Nat} (h3 : 3 ≤ v) (n : Nat) : n * 2 ^ v / 8 = n * 2 ^ (v - 3) := by
  rw [two_pow_eq_eight_mul h3, Nat.mul_left_comm, Nat.mul_div_cancel_left _ (by decide)]

/-- Settles O44: the group is the quotient of the byte number by the bytes of a group, and at `v = 2` it is the nibble
number. -/
theorem groupsAndBytes : Obligations.GroupsAndBytes := by
  intro id v i x _ _ hx
  refine ⟨fun h3 => ?_, ?_⟩
  · have hbyte := byte_div_of_derive_getElem? h3 hx
    obtain ⟨hlow, hhigh⟩ := (Nat.div_eq_iff (Nat.two_pow_pos (v - 3))).1 hbyte
    rw [mul_two_pow_div_eight h3, mul_two_pow_div_eight h3, Nat.add_one_mul]
    refine ⟨hlow, hhigh, fun j y hy hne hsame => hne ?_⟩
    rw [← byte_div_of_derive_getElem? h3 hy, hsame, hbyte]
  · rintro rfl
    have hnibble : x / 4 = i := div_of_derive_getElem? hx
    omega

end Sys2Proof.Machine

namespace Sys2Proof

/-! ### The fields a command word decodes from (30_encoding.md R70, R73 to R81) -/

theorem decodeV_eq_legal {mk : Int → Instr} {cw : CommandWord} {i : Instr} :
    decodeV mk cw = .legal i ↔
      auxOf cw = 0#8 ∧ cwField cw 32 96 = 0#96 ∧ mk (cwField cw 0 32).toInt = i := by
  unfold decodeV
  split_ifs <;> simp_all

theorem decodeI_eq_legal {mk : Nat → Identifier → Instr} {cw : CommandWord} {i : Instr} :
    decodeI mk cw = .legal i ↔ mk (auxOf cw).toNat (argOf cw) = i := by
  simp [decodeI]

theorem decodeC_eq_legal {mk : Nat → Instr} {cw : CommandWord} {i : Instr} :
    decodeC mk cw = .legal i ↔
      auxOf cw = 0#8 ∧ cwField cw 8 120 = 0#120 ∧ mk (cwField cw 0 8).toNat = i := by
  unfold decodeC
  split_ifs <;> simp_all

theorem decodeS_eq_legal {mk : Nat → Instr} {cw : CommandWord} {i : Instr} :
    decodeS mk cw = .legal i ↔
      auxOf cw = 0#8 ∧ cwField cw 0 64 = 0#64 ∧ mk (cwField cw 64 64).toNat = i := by
  unfold decodeS
  split_ifs <;> simp_all

theorem decodeB_eq_legal {mk : Nat → Nat → Instr} {cw : CommandWord} {i : Instr} :
    decodeB mk cw = .legal i ↔
      auxOf cw = 0#8 ∧ mk (cwField cw 64 64).toNat (cwField cw 0 64).toNat = i := by
  unfold decodeB
  split_ifs <;> simp_all

/-- The word's opcode is the command's, the must-be-zero fields of its format are zero, and the operands are the fields
as they stand (R73 to R80). -/
def HoldsCommand (cw : CommandWord) : Instr → Prop
  | .init var =>
    opOf cw = 0x01#8 ∧ auxOf cw = 0#8 ∧ cwField cw 32 96 = 0#96 ∧ (cwField cw 0 32).toInt = var
  | .desc var =>
    opOf cw = 0x02#8 ∧ auxOf cw = 0#8 ∧ cwField cw 32 96 = 0#96 ∧ (cwField cw 0 32).toInt = var
  | .add idLen id => opOf cw = 0x03#8 ∧ (auxOf cw).toNat = idLen ∧ argOf cw = id
  | .has idLen id => opOf cw = 0x04#8 ∧ (auxOf cw).toNat = idLen ∧ argOf cw = id
  | .derive idLen id => opOf cw = 0x05#8 ∧ (auxOf cw).toNat = idLen ∧ argOf cw = id
  | .rdcsr csrn =>
    opOf cw = 0x06#8 ∧ auxOf cw = 0#8 ∧ cwField cw 8 120 = 0#120 ∧ (cwField cw 0 8).toNat = csrn
  | .rdlen segi =>
    opOf cw = 0x07#8 ∧ auxOf cw = 0#8 ∧ cwField cw 0 64 = 0#64 ∧ (cwField cw 64 64).toNat = segi
  | .rdbyte segi off =>
    opOf cw = 0x08#8 ∧ auxOf cw = 0#8 ∧ (cwField cw 64 64).toNat = segi ∧ (cwField cw 0 64).toNat = off

/-- The decoder's opcode chain, said once: a word decodes to a command exactly when it holds that command. -/
theorem decode_eq_legal_iff {cw : CommandWord} {i : Instr} : decode cw = .legal i ↔ HoldsCommand cw i := by
  unfold decode
  split_ifs with h1 h2 h3 h4 h5 h6 h7 h8
  · rw [decodeV_eq_legal]; cases i <;> simp [HoldsCommand, h1]
  · rw [decodeV_eq_legal]; cases i <;> simp [HoldsCommand, h2]
  · rw [decodeI_eq_legal]; cases i <;> simp [HoldsCommand, h3]
  · rw [decodeI_eq_legal]; cases i <;> simp [HoldsCommand, h4]
  · rw [decodeI_eq_legal]; cases i <;> simp [HoldsCommand, h5]
  · rw [decodeC_eq_legal]; cases i <;> simp [HoldsCommand, h6]
  · rw [decodeS_eq_legal]; cases i <;> simp [HoldsCommand, h7]
  · rw [decodeB_eq_legal]; cases i <;> simp [HoldsCommand, h8]
  · cases i <;> simp [HoldsCommand, h1, h2, h3, h4, h5, h6, h7, h8]

/-! ### Encoding and decoding (R73 to R79) -/

theorem varFits_iff {var : Int} : varFits var = true ↔ -2 ^ 31 ≤ var ∧ var < 2 ^ 31 := by
  rw [varFits, Bool.and_eq_true_iff, decide_eq_true_iff, decide_eq_true_iff]

theorem toInt_ofInt_of_varFits {var : Int} (h : varFits var = true) : (BitVec.ofInt 32 var).toInt = var := by
  obtain ⟨hlow, hhigh⟩ := varFits_iff.1 h
  exact BitVec.toInt_ofInt_eq_self (by decide) hlow hhigh

theorem toNat_ofNat_of_fits {w n : Nat} (h : decide (n < 2 ^ w) = true) : (BitVec.ofNat w n).toNat = n := by
  rw [BitVec.toNat_ofNat, Nat.mod_eq_of_lt (of_decide_eq_true h)]

theorem varFits_toInt (x : BitVec 32) : varFits x.toInt = true :=
  varFits_iff.2 ⟨x.le_toInt, x.toInt_lt⟩

/-- The fields of an argument of two parts (R74, R76 to R78). -/
theorem cwField_packWord_append (op aux : Byte) {hi lo : Nat} (x : BitVec hi) (y : BitVec lo) (h : hi + lo = 128) :
    cwField (packWord op aux ((x ++ y).cast h)) lo hi = x ∧ cwField (packWord op aux ((x ++ y).cast h)) 0 lo = y := by
  rw [cwField_packWord _ _ _ (by omega), cwField_packWord _ _ _ (by omega), BitVec.extractLsb'_cast,
    BitVec.extractLsb'_cast]
  exact ⟨BitVec.extractLsb'_append_eq_left, BitVec.extractLsb'_append_eq_right⟩

/-- The word of a well-formed command holds it: no operand is cut by its field. -/
theorem holdsCommand_encode {i : Instr} (h : i.wf = true) : HoldsCommand (encode i) i := by
  cases i with
  | init var | desc var =>
    obtain ⟨hzero, hvar⟩ := cwField_packWord_append _ 0#8 0#96 (BitVec.ofInt 32 var) rfl
    exact ⟨opOf_packWord .., auxOf_packWord .., hzero, hvar ▸ toInt_ofInt_of_varFits h⟩
  | add n id | has n id | derive n id =>
    exact ⟨opOf_packWord .., auxOf_packWord .. ▸ toNat_ofNat_of_fits h, argOf_packWord ..⟩
  | rdcsr n =>
    obtain ⟨hzero, hn⟩ := cwField_packWord_append 0x06#8 0#8 0#120 (BitVec.ofNat 8 n) rfl
    exact ⟨opOf_packWord .., auxOf_packWord .., hzero, hn ▸ toNat_ofNat_of_fits h⟩
  | rdlen g =>
    obtain ⟨hg, hzero⟩ := cwField_packWord_append 0x07#8 0#8 (BitVec.ofNat 64 g) 0#64 rfl
    exact ⟨opOf_packWord .., auxOf_packWord .., hzero, hg ▸ toNat_ofNat_of_fits h⟩
  | rdbyte g o =>
    obtain ⟨hg, ho⟩ := cwField_packWord_append 0x08#8 0#8 (BitVec.ofNat 64 g) (BitVec.ofNat 64 o) rfl
    obtain ⟨hgfits, hofits⟩ := Bool.and_eq_true_iff.1 h
    exact ⟨opOf_packWord .., auxOf_packWord .., hg ▸ toNat_ofNat_of_fits hgfits,
      ho ▸ toNat_ofNat_of_fits hofits⟩

/-- Settles O1: the encoded word holds the command, and what a word holds is what it decodes to. -/
theorem decodeOfEncodeIsTheCommand : Obligations.DecodeOfEncodeIsTheCommand :=
  fun _ h => decode_eq_legal_iff.2 (holdsCommand_encode h)

/-- Two adjoining fields are the argument when together they span it. -/
theorem cwField_append (cw : CommandWord) (hi lo : Nat) :
    cwField cw lo hi ++ cwField cw 0 lo = cwField cw 0 (hi + lo) :=
  BitVec.extractLsb'_append_extractLsb'_eq_extractLsb' (Nat.zero_add lo).symm

/-- A word that holds a command is its encoding: opcode, must-be-zero fields and operands are all of the word (R79). -/
theorem encode_of_holdsCommand {cw : CommandWord} {i : Instr} (h : HoldsCommand cw i) : encode i = cw := by
  have hpack := packWord_fields cw
  cases i with
  | init var | desc var =>
    obtain ⟨hop, haux, hzero, rfl⟩ := h
    have harg : 0#96 ++ cwField cw 0 32 = argOf cw := hzero ▸ cwField_append cw 96 32
    rw [encode, BitVec.ofInt_toInt, harg, ← hop, ← haux, hpack]
  | add n id | has n id | derive n id =>
    obtain ⟨hop, rfl, rfl⟩ := h
    rw [encode, BitVec.ofNat_toNat, BitVec.setWidth_eq, ← hop, hpack]
  | rdcsr n =>
    obtain ⟨hop, haux, hzero, rfl⟩ := h
    have harg : 0#120 ++ cwField cw 0 8 = argOf cw := hzero ▸ cwField_append cw 120 8
    rw [encode, BitVec.ofNat_toNat, BitVec.setWidth_eq, harg, ← hop, ← haux, hpack]
  | rdlen g =>
    obtain ⟨hop, haux, hzero, rfl⟩ := h
    have harg : cwField cw 64 64 ++ 0#64 = argOf cw := hzero ▸ cwField_append cw 64 64
    rw [encode, BitVec.ofNat_toNat, BitVec.setWidth_eq, harg, ← hop, ← haux, hpack]
  | rdbyte g o =>
    obtain ⟨hop, haux, rfl, rfl⟩ := h
    have harg : cwField cw 64 64 ++ cwField cw 0 64 = argOf cw := cwField_append cw 64 64
    simp only [encode, BitVec.ofNat_toNat, BitVec.setWidth_eq]
    rw [harg, ← hop, ← haux, hpack]

theorem fits_toNat {w : Nat} (x : BitVec w) : decide (x.toNat < 2 ^ w) = true := decide_eq_true x.isLt

theorem wf_of_holdsCommand {cw : CommandWord} {i : Instr} (h : HoldsCommand cw i) : i.wf = true := by
  cases i with
  | init var | desc var =>
    obtain ⟨-, -, -, rfl⟩ := h
    exact varFits_toInt (cwField cw 0 32)
  | add n id | has n id | derive n id =>
    obtain ⟨-, rfl, -⟩ := h
    exact fits_toNat (auxOf cw)
  | rdcsr n =>
    obtain ⟨-, -, -, rfl⟩ := h
    exact fits_toNat (cwField cw 0 8)
  | rdlen g =>
    obtain ⟨-, -, -, rfl⟩ := h
    exact fits_toNat (cwField cw 64 64)
  | rdbyte g o =>
    obtain ⟨-, -, rfl, rfl⟩ := h
    exact Bool.and_eq_true_iff.2 ⟨fits_toNat (cwField cw 64 64), fits_toNat (cwField cw 0 64)⟩

/-- Settles O2: a legal word holds its command, so the command is well-formed and encodes to the word. -/
theorem legalWordIsTheEncodingOfItsCommand : Obligations.LegalWordIsTheEncodingOfItsCommand := by
  intro cw i h
  have hholds := decode_eq_legal_iff.1 h
  exact ⟨encode_of_holdsCommand hholds, wf_of_holdsCommand hholds⟩

/-! ### The opcode map (R80) -/

/-- Where the mask covers a field, a word the row selects has the field of the row's `match`. -/
theorem cwField_of_selects {cw maskWord matchWord : CommandWord} {lo len : Nat} (h : cw &&& maskWord = matchWord)
    (hmask : cwField maskWord lo len = BitVec.allOnes len) : cwField cw lo len = cwField matchWord lo len := by
  calc cwField cw lo len
    _ = cwField cw lo len &&& cwField maskWord lo len := by rw [hmask, BitVec.and_allOnes]
    _ = cwField (cw &&& maskWord) lo len := BitVec.extractLsb'_and.symm
    _ = cwField matchWord lo len := by rw [h]

/-- The word of every command selects the row that bears its mnemonic. -/
theorem opcodeRow_statement (i : Instr) : Laws.OpcodeRow.Statement i :=
  match i with
  | .init var => Laws.OpcodeRow.init var
  | .desc var => Laws.OpcodeRow.desc var
  | .add n id => Laws.OpcodeRow.add n id
  | .has n id => Laws.OpcodeRow.has n id
  | .derive n id => Laws.OpcodeRow.derive n id
  | .rdcsr n => Laws.OpcodeRow.rdcsr n
  | .rdlen g => Laws.OpcodeRow.rdlen g
  | .rdbyte g o => Laws.OpcodeRow.rdbyte g o

/-- No two rows bear one mnemonic. -/
theorem opcodeRow_eq_of_mnemonic :
    ∀ r ∈ opcodeTable, ∀ r' ∈ opcodeTable, r.mnemonic = r'.mnemonic → r = r' := by
  decide

/-- A word that decodes to a command selects the row of its mnemonic: its encoding does. -/
theorem and_mask_of_legal {cw : CommandWord} {i : Instr} {r : OpcodeRow} (hr : r ∈ opcodeTable)
    (hlegal : decode cw = .legal i) (hname : mnemonicOf i = r.mnemonic) : cw &&& r.maskWord = r.matchWord := by
  obtain ⟨r', hr', hname', hselects⟩ := opcodeRow_statement i
  obtain rfl := opcodeRow_eq_of_mnemonic r hr r' hr' (hname.symm.trans hname'.symm)
  rw [encode_of_holdsCommand (decode_eq_legal_iff.1 hlegal)] at hselects
  exact eq_of_beq hselects

/-- A word that selects a row holds a command of that row: the mask covers the opcode and the must-be-zero fields. -/
theorem legal_of_and_mask {cw : CommandWord} {r : OpcodeRow} (hr : r ∈ opcodeTable)
    (h : cw &&& r.maskWord = r.matchWord) : ∃ i, decode cw = .legal i ∧ mnemonicOf i = r.mnemonic := by
  simp only [decode_eq_legal_iff]
  simp only [opcodeTable, List.mem_cons, List.not_mem_nil, or_false] at hr
  obtain rfl | rfl | rfl | rfl | rfl | rfl | rfl | rfl := hr
  · exact ⟨.init _, ⟨cwField_of_selects h (by decide), cwField_of_selects h (by decide),
      cwField_of_selects h (by decide), rfl⟩, rfl⟩
  · exact ⟨.desc _, ⟨cwField_of_selects h (by decide), cwField_of_selects h (by decide),
      cwField_of_selects h (by decide), rfl⟩, rfl⟩
  · exact ⟨.add _ _, ⟨cwField_of_selects h (by decide), rfl, rfl⟩, rfl⟩
  · exact ⟨.has _ _, ⟨cwField_of_selects h (by decide), rfl, rfl⟩, rfl⟩
  · exact ⟨.derive _ _, ⟨cwField_of_selects h (by decide), rfl, rfl⟩, rfl⟩
  · exact ⟨.rdcsr _, ⟨cwField_of_selects h (by decide), cwField_of_selects h (by decide),
      cwField_of_selects h (by decide), rfl⟩, rfl⟩
  · exact ⟨.rdlen _, ⟨cwField_of_selects h (by decide), cwField_of_selects h (by decide),
      cwField_of_selects h (by decide), rfl⟩, rfl⟩
  · exact ⟨.rdbyte _ _, ⟨cwField_of_selects h (by decide), cwField_of_selects h (by decide), rfl, rfl⟩, rfl⟩

/-- Settles O3: rows and decoded commands correspond, and a word decodes to one command, which has one mnemonic. -/
theorem opcodeMapSelectsTheDecodedCommand : Obligations.OpcodeMapSelectsTheDecodedCommand := by
  refine fun cw => ⟨fun r hr => ⟨legal_of_and_mask hr, ?_⟩, fun r hr r' hr' h h' => ?_⟩
  · rintro ⟨i, hlegal, hname⟩
    exact and_mask_of_legal hr hlegal hname
  · obtain ⟨i, hlegal, hname⟩ := legal_of_and_mask hr h
    obtain ⟨i', hlegal', hname'⟩ := legal_of_and_mask hr' h'
    obtain rfl : i = i' := Decoded.legal.inj (hlegal.symm.trans hlegal')
    exact opcodeRow_eq_of_mnemonic r hr r' hr' (hname.symm.trans hname')

/-! ### A command word as bytes (R71) -/

@[simp] theorem length_bytesOfWord (cw : CommandWord) : (bytesOfWord cw).length = 18 := by
  simp [bytesOfWord]

theorem bytesOfWord_getElem? (cw : CommandWord) {j : Nat} (hj : j < 18) :
    (bytesOfWord cw)[j]? = some (cwField cw (8 * (17 - j)) 8) := by
  simp [bytesOfWord, hj]

/-- A field of `ARG` is the same field of the word. -/
theorem extractLsb'_argOf (cw : CommandWord) {lo len : Nat} (h : lo + len ≤ 128) :
    (argOf cw).extractLsb' lo len = cwField cw lo len :=
  BitVec.extractLsb'_extractLsb'_of_le h

/-- Byte `2 + j` is byte `j` of `ARG` (R71, R72). -/
theorem bytesOfWord_getElem?_two_add (cw : CommandWord) {j : Nat} (hj : j < 16) :
    (bytesOfWord cw)[2 + j]? = some ((argOf cw).extractLsb' (120 - 8 * j) 8) := by
  rw [bytesOfWord_getElem? cw (by omega), extractLsb'_argOf cw (by omega)]
  congr 3
  omega

theorem natOfBytes_append_singleton (bs : List Byte) (b : Byte) :
    natOfBytes (bs ++ [b]) = natOfBytes bs * 256 + b.toNat := by
  rw [natOfBytes, List.foldl_concat]
  rfl

theorem toNat_cwField (cw : CommandWord) (lo len : Nat) : (cwField cw lo len).toNat = cw.toNat / 2 ^ lo % 2 ^ len := by
  rw [cwField, BitVec.extractLsb'_toNat, Nat.shiftRight_eq_div_pow]

/-- The first `n` bytes of a word spell its top `8 * n` bits. -/
theorem natOfBytes_leadingBytes (cw : CommandWord) {n : Nat} (hn : n ≤ 18) :
    natOfBytes ((List.range n).map fun j => cwField cw (8 * (17 - j)) 8) = cw.toNat / 2 ^ (8 * (18 - n)) := by
  induction n with
  | zero => exact (Nat.div_eq_of_lt cw.isLt).symm
  | succ n ih =>
    have hshift : 8 * (18 - n) = 8 * (17 - n) + 8 := by omega
    have hnext : 18 - (n + 1) = 17 - n := by omega
    rw [List.range_succ, List.map_append, List.map_singleton, natOfBytes_append_singleton, ih (by omega), toNat_cwField,
      hshift, hnext, Nat.pow_add, ← Nat.div_div_eq_div_mul]
    exact Nat.div_add_mod' _ 256

theorem wordOfBytes_bytesOfWord (cw : CommandWord) : wordOfBytes (bytesOfWord cw) = some cw := by
  have hnat : natOfBytes (bytesOfWord cw) = cw.toNat :=
    (natOfBytes_leadingBytes cw (Nat.le_refl 18)).trans (Nat.div_one _)
  rw [wordOfBytes, if_pos (length_bytesOfWord cw), hnat, BitVec.ofNat_toNat, BitVec.setWidth_eq]

@[simp] theorem decodeBytes_bytesOfWord (cw : CommandWord) : decodeBytes (bytesOfWord cw) = decode cw := by
  rw [decodeBytes, wordOfBytes_bytesOfWord]

/-- Only 18 bytes are a command word. -/
theorem length_of_decodeBytes_eq_legal {bs : List Byte} {i : Instr} (h : decodeBytes bs = .legal i) :
    bs.length = 18 := by
  by_contra hlen
  rw [decodeBytes, wordOfBytes, if_neg hlen] at h
  exact absurd h (by simp)

/-- Settles O5: each byte is a field of the word, and the bytes put together again are the word. -/
theorem commandWordAsBytes : Obligations.CommandWordAsBytes := by
  refine fun cw => ⟨length_bytesOfWord cw, bytesOfWord_getElem? cw (by decide), bytesOfWord_getElem? cw (by decide),
    fun _ hj => bytesOfWord_getElem?_two_add cw hj, decodeBytes_bytesOfWord cw, ?_⟩
  rintro bs hbs ⟨i, hi⟩
  exact length_of_decodeBytes_eq_legal (hbs.trans hi)

/-! ### The operands of formats V and I (R72, R74) -/

/-- The operands of every format I command are `AUX` and `ARG` (R75). -/
theorem formatI_operands {cw : CommandWord} {n : Nat} {id : Identifier}
    (h : decode cw = .legal (.add n id) ∨ decode cw = .legal (.has n id) ∨ decode cw = .legal (.derive n id)) :
    (auxOf cw).toNat = n ∧ argOf cw = id := by
  rcases h with h | h | h <;>
  · obtain ⟨-, hoperands⟩ := decode_eq_legal_iff.1 h
    exact hoperands

/-- The operand of every format V command is the signed low field (R74). -/
theorem formatV_operand {cw : CommandWord} {var : Int}
    (h : decode cw = .legal (.init var) ∨ decode cw = .legal (.desc var)) : (cwField cw 0 32).toInt = var := by
  rcases h with h | h <;>
  · obtain ⟨-, -, -, hvar⟩ := decode_eq_legal_iff.1 h
    exact hvar

/-- Settles O7: the operand of format V is its field as a signed integer, which fits 32 bits. -/
theorem variantOperandIsSigned : Obligations.VariantOperandIsSigned := by
  intro cw var h
  obtain rfl := formatV_operand h
  obtain ⟨hlow, hhigh⟩ := varFits_iff.1 (varFits_toInt (cwField cw 0 32))
  have hsign : (cwField cw 0 32).msb = (argOf cw).getLsbD 31 := by
    simp [BitVec.msb_eq_getLsbD_last, cwField, argOf]
  rw [extractLsb'_argOf cw (by decide), ← hsign]
  exact ⟨BitVec.toInt_eq_msb_cond _, hlow, by omega⟩

/-- Identifier byte `j` as bits of the identifier (R72). -/
theorem inputByte_eq (id : Identifier) {j : Nat} (hj : j < 16) :
    Machine.inputByte id j = (id.extractLsb' (120 - 8 * j) 8).toNat := by
  have hlen : 127 - 8 * j - (120 - 8 * j) + 1 = 8 := by omega
  rw [Machine.inputByte, Machine.field, hlen, BitVec.extractLsb'_toNat, Nat.shiftRight_eq_div_pow]

/-- Settles O8: `ID` is `ARG`, whose bytes are the command bytes from byte 2 on. -/
theorem identifierBytesAreCommandBytes : Obligations.IdentifierBytesAreCommandBytes := by
  intro cw n id h
  obtain ⟨rfl, rfl⟩ := formatI_operands h
  refine ⟨rfl, fun j hj => ⟨inputByte_eq (argOf cw) hj, ?_⟩⟩
  rw [bytesOfWord_getElem?_two_add cw hj, inputByte_eq (argOf cw) hj, Option.map_some]

end Sys2Proof

namespace Sys2Proof.Machine

open Sys2Proof.Safety

/-! ### One response to one command word (30_encoding.md R84 to R86) -/

theorem responseOk_errorResponse (e : UnitError) : responseOk (errorResponse e) = true := by
  cases e <;> decide

theorem responseOk_okResponse {flag : Bool} {data : List Beat} (h : data.length ≤ 64) :
    responseOk (okResponse flag data) = true := by
  simp [responseOk, okResponse, Response.nbeats, h]

/-- From `s` to `t` the unit takes no input and gives one response of the form of R84 and R85, with `FLAG` 1 only where
`mayFlag` allows it. -/
def AnswersOnce (mayFlag : Prop) (s t : State) : Prop :=
  t.inputs = s.inputs ∧
    ∃ r : Response, t.responses = s.responses ++ [r] ∧ responseOk r = true ∧ (r.flag = true → mayFlag)

section AnswersOnce
variable {mayFlag : Prop} {s s' : State}

theorem answersOnce_error (e : UnitError) : AnswersOnce mayFlag s (s.answer (errorResponse e)) :=
  ⟨rfl, errorResponse e, rfl, responseOk_errorResponse e, fun h => absurd h (by simp [errorResponse])⟩

/-- A success answered on a state with the same log and inputs, so an effect on the unit itself is allowed. -/
theorem answersOnce_ok {flag : Bool} {data : List Beat} (hin : s'.inputs = s.inputs)
    (hlog : s'.responses = s.responses) (hlen : data.length ≤ 64) (hflag : flag = true → mayFlag) :
    AnswersOnce mayFlag s (s'.answer (okResponse flag data)) :=
  ⟨hin, okResponse flag data, congrArg (· ++ [okResponse flag data]) hlog, responseOk_okResponse hlen, hflag⟩

theorem answersOnce_noFlag {data : List Beat} (hin : s'.inputs = s.inputs)
    (hlog : s'.responses = s.responses) (hlen : data.length ≤ 64) :
    AnswersOnce mayFlag s (s'.answer (okResponse noFlag data)) :=
  answersOnce_ok hin hlog hlen fun h => absurd h (by simp [noFlag])

end AnswersOnce

theorem bitSetAll_ports {idx : List Nat} {s t : State} (h : bitSetAll idx s = some t) :
    t.inputs = s.inputs ∧ t.responses = s.responses := by
  rcases bitSetAll_frame h with rfl | ⟨m, -, rfl⟩ <;> exact ⟨rfl, rfl⟩

/-- DERIVE has at most 64 beats: a filter has variant 2 at least (40_configuration.md R101). -/
theorem length_derive_le {s : State} (hs : Inv s) (hc : s.cfg = true) (id : Identifier) :
    (derive s.variant id).length ≤ 64 := by
  obtain ⟨-, -, hconf⟩ := hs
  obtain ⟨-, -, h2, -, -⟩ := hconf hc
  rw [derive, indices, List.length_map, List.length_range]
  exact Nat.div_le_div_left h2 (by decide)

theorem exec_answersOnce {i : Instr} {s t : State} (hs : Inv s) (h : exec i s = .next t) :
    AnswersOnce (∃ n id, i = .has n id) s t := by
  cases i with
  | init var =>
    rcases execInit_cases h with ⟨e, -, rfl⟩ | ⟨-, -, rfl⟩
    · exact answersOnce_error e
    · exact answersOnce_noFlag (constructFilter_inputs ..) (constructFilter_responses ..)
        (by simp [initBeats, describeBeats])
  | desc var =>
    rcases execDesc_cases h with ⟨e, -, rfl⟩ | ⟨-, -, rfl⟩
    · exact answersOnce_error e
    · exact answersOnce_noFlag rfl rfl (by simp [describeBeats])
  | add n id =>
    rcases execAdd_cases h with ⟨e, -, rfl⟩ | ⟨-, -, s', hset, rfl⟩
    · exact answersOnce_error e
    · obtain ⟨hin, hlog⟩ := bitSetAll_ports hset
      exact answersOnce_noFlag hin hlog (by simp)
  | has n id =>
    rcases execHas_cases h with ⟨e, -, rfl⟩ | ⟨-, -, flag, -, rfl⟩
    · exact answersOnce_error e
    · exact answersOnce_ok rfl rfl (by simp) fun _ => ⟨n, id, rfl⟩
  | derive n id =>
    rcases execDerive_cases h with ⟨e, -, rfl⟩ | ⟨hc, -, rfl⟩
    · exact answersOnce_error e
    · exact answersOnce_noFlag rfl rfl (by simpa using length_derive_le hs hc id)
  | rdcsr n =>
    rcases execRdcsr_cases h with ⟨e, -, rfl⟩ | ⟨c, -, rfl⟩
    · exact answersOnce_error e
    · exact answersOnce_noFlag rfl rfl (by simp)
  | rdlen g =>
    rcases execRdlen_cases h with ⟨e, -, rfl⟩ | ⟨len, -, rfl⟩
    · exact answersOnce_error e
    · exact answersOnce_noFlag rfl rfl (by simp)
  | rdbyte g o =>
    rcases execRdbyte_cases h with ⟨e, -, rfl⟩ | ⟨x, -, rfl⟩
    · exact answersOnce_error e
    · exact answersOnce_noFlag rfl rfl (by simp)

theorem runCommand_answersOnce {cw : CommandWord} {s t : State} (hs : Inv s) (h : runCommand cw s = .next t) :
    AnswersOnce (∃ n id, decode cw = .legal (.has n id)) s t := by
  rcases runCommand_cases h with ⟨-, -, rfl⟩ | ⟨i, hi, hexec⟩
  · exact answersOnce_error .illegalCommand
  · simpa [hi] using exec_answersOnce hs hexec

/-- Settles O17: illegal words answer an error, and each command answers once. -/
theorem everyCommandGivesOneResponse : Obligations.EveryCommandGivesOneResponse := by
  intro s t cw rest hs hin h
  rw [step_command hin] at h
  exact runCommand_answersOnce (s := s.withInputs rest) (inv_withInputs hs rest) h

/-! ### A step and the command it takes (30_encoding.md R81, R88) -/

theorem decode_tableWord {nbits w : Nat} {i : Instr} (h : decodeTableWord nbits w = some i) :
    decode (tableWord nbits w) = .legal i := by
  rw [decodeTableWord, decodeBytes_bytesOfWord] at h
  split at h
  · rename_i hdec
    rw [hdec, Option.some.inj h]
  · exact absurd h (by simp)

/-- Settles O9: the word taken from the port is the word that decodes. -/
theorem stepRunsTheDecodedCommand : Obligations.StepRunsTheDecodedCommand := by
  refine ⟨fun s cw rest i h => ?_, fun s nbits w i h => ?_⟩
  · rw [step_command (cw := cw) (rest := rest) rfl, runCommand_of_legal h]
    rfl
  · rw [step_command (State.withFetchWord_inputs s nbits w), runCommand_of_legal (decode_tableWord h)]
    rfl

/-! ### A response as bytes (30_encoding.md R87) -/

theorem toNat_headerByte0 (r : Response) : (headerByte0 r).toNat = 16 * r.status.toNat + r.flag.toNat := by
  have hfields : ∀ (status : BitVec 4) (flag : Bool),
      (status ++ 0#3 ++ BitVec.ofBool flag).toNat = 16 * status.toNat + flag.toNat := by decide
  exact hfields r.status r.flag

/-- Header byte 0 determines its two fields. -/
theorem headerByte0_inj {r r' : Response} (h : headerByte0 r = headerByte0 r') :
    r.status = r'.status ∧ r.flag = r'.flag := by
  have hnat := congrArg BitVec.toNat h
  rw [toNat_headerByte0, toNat_headerByte0] at hnat
  have hle := r.flag.toNat_le
  have hle' := r'.flag.toNat_le
  have htoNat_inj : ∀ f f' : Bool, f.toNat = f'.toNat → f = f' := by decide
  exact ⟨BitVec.eq_of_toNat_eq (by omega), htoNat_inj _ _ (by omega)⟩

/-- `NBEATS` is not cut by its 7 bits. -/
theorem toNat_headerByte1 {r : Response} (h : r.data.length ≤ 64) : (headerByte1 r).toNat = r.data.length := by
  have hfits : r.data.length % 2 ^ 7 = r.data.length := Nat.mod_eq_of_lt (by omega)
  exact (BitVec.toNat_append 0#1 (BitVec.ofNat 7 r.data.length)).trans (by simpa using hfits)

@[simp] theorem length_beatBytes (b : Beat) : (beatBytes b).length = 16 := by
  simp [beatBytes]

theorem beatBytes_getElem? (b : Beat) {j : Nat} (hj : j < 16) :
    (beatBytes b)[j]? = some (b.extractLsb' (120 - 8 * j) 8) := by
  have hlo : 8 * (15 - j) = 120 - 8 * j := by omega
  simp [beatBytes, hj, hlo]

/-- Bit `i` of a beat is bit `i % 8` of byte `15 - i / 8`. -/
theorem beatBytes_injective : Function.Injective beatBytes := by
  intro b b' h
  apply BitVec.eq_of_getLsbD_eq
  intro i hi
  have hbyte : (beatBytes b)[15 - i / 8]? = (beatBytes b')[15 - i / 8]? := by rw [h]
  rw [beatBytes_getElem? b (by omega), beatBytes_getElem? b' (by omega), Option.some.injEq] at hbyte
  have hbit := congrArg (BitVec.getLsbD · (i % 8)) hbyte
  have hpos : 120 - 8 * (15 - i / 8) + i % 8 = i := by omega
  simpa [BitVec.getLsbD_extractLsb', Nat.mod_lt, hpos] using hbit

theorem length_flatten_beatBytes (data : List Beat) : (data.map beatBytes).flatten.length = 16 * data.length := by
  simp [List.length_flatten, Function.comp_def, Nat.mul_comm]

/-- Byte `j` of beat `i`. -/
theorem flatten_beatBytes_getElem? {data : List Beat} {i : Nat} {b : Beat} (h : data[i]? = some b) {j : Nat}
    (hj : j < 16) : (data.map beatBytes).flatten[16 * i + j]? = (beatBytes b)[j]? := by
  induction data generalizing i with
  | nil => simp at h
  | cons c data ih =>
    rw [List.map_cons, List.flatten_cons]
    cases i with
    | zero =>
      obtain rfl : c = b := by simpa using h
      rw [List.getElem?_append_left (by simpa using hj), Nat.mul_zero, Nat.zero_add]
    | succ i =>
      rw [List.getElem?_append_right (by rw [length_beatBytes]; omega), ← ih (by simpa using h), length_beatBytes]
      congr 1
      omega

/-- The beats can be cut apart again, since each has 16 bytes. -/
theorem flatten_beatBytes_inj {data data' : List Beat}
    (h : (data.map beatBytes).flatten = (data'.map beatBytes).flatten) : data = data' := by
  have hlen : data.length = data'.length := by
    have hbytes := congrArg List.length h
    rw [length_flatten_beatBytes, length_flatten_beatBytes] at hbytes
    omega
  have hsizes : (data.map beatBytes).map List.length = (data'.map beatBytes).map List.length := by
    simp [Function.comp_def, hlen]
  exact beatBytes_injective.list_map (List.eq_iff_flatten_eq.2 ⟨h, hsizes⟩)

theorem length_responseBytes (r : Response) : (responseBytes r).length = 2 + 16 * r.data.length := by
  rw [responseBytes, List.length_cons, List.length_cons, length_flatten_beatBytes]
  omega

/-- Byte `j` of beat `i` follows the two header bytes and the beats before it. -/
theorem responseBytes_getElem? {r : Response} {i : Nat} {b : Beat} (h : r.data[i]? = some b) {j : Nat} (hj : j < 16) :
    (responseBytes r)[2 + 16 * i + j]? = some (b.extractLsb' (120 - 8 * j) 8) := by
  have hpos : 2 + 16 * i + j = 16 * i + j + 1 + 1 := by omega
  rw [responseBytes, hpos, List.getElem?_cons_succ, List.getElem?_cons_succ, flatten_beatBytes_getElem? h hj,
    beatBytes_getElem? b hj]

/-- The bytes determine the response, whatever its number of beats. -/
theorem responseBytes_inj {r r' : Response} (h : responseBytes r = responseBytes r') : r = r' := by
  obtain ⟨hheader, hrest⟩ := List.cons.inj h
  obtain ⟨-, hbeats⟩ := List.cons.inj hrest
  obtain ⟨hstatus, hflag⟩ := headerByte0_inj hheader
  have hdata := flatten_beatBytes_inj hbeats
  cases r
  cases r'
  rw [Response.mk.injEq]
  exact ⟨hstatus, hflag, hdata⟩

/-- Settles O58: two header bytes and sixteen bytes a beat, each of which can be read back. -/
theorem responseAsBytes : Obligations.ResponseAsBytes := by
  refine ⟨fun r hr => ⟨length_responseBytes r, ?_, ?_, fun i b hb j hj => responseBytes_getElem? hb hj⟩,
    fun r r' _ _ h => responseBytes_inj h⟩
  · exact congrArg some (toNat_headerByte0 r)
  · exact congrArg some (toNat_headerByte1 hr)

end Sys2Proof.Machine

namespace Sys2Proof.Machine

open Sys2Proof.Safety

/-! ### A command that fails (60_exceptions.md R218, R219) -/

/-- Settles O20: a response with a code was given by `raise`, since a success answers with status 0. -/
theorem failedCommandChangesNothing : Obligations.FailedCommandChangesNothing := by
  intro i s t r h hlog hstatus
  rcases exec_cases h with ⟨e, rfl⟩ | ⟨s', flag, data, -, rfl⟩
  · obtain rfl : errorResponse e = r := by simpa using hlog
    exact ⟨rfl, rfl, rfl⟩
  · obtain ⟨-, hr⟩ := List.append_inj' hlog rfl
    obtain rfl : okResponse flag data = r := by simpa using hr
    exact absurd rfl hstatus

/-! ### The variant calculator (40_configuration.md R101 to R107) -/

/-- For `v >= 3` every group owns `2 ^ (v - 3)` whole bytes. -/
theorem bufferSize_of_three_le {v : Nat} (h3 : 3 ≤ v) : bufferSize v = groupCount v * 2 ^ (v - 3) :=
  mul_two_pow_div_eight h3 (groupCount v)

/-- Settles O26: `m(v)` is a multiple of 8. -/
theorem bufferSizeIsExact : Obligations.BufferSizeIsExact := by
  intro v h2
  refine ⟨Nat.mul_div_cancel' (eight_dvd_bitCount h2), ?_, fun h3 => ?_⟩
  · rintro rfl
    decide
  · exact ⟨Dvd.intro _ (two_pow_eq_eight_mul h3).symm, bufferSize_of_three_le h3⟩

/-- The store has a byte as long as there is a group (R105). -/
theorem bufferSize_pos {v : Nat} (h2 : 2 ≤ v) (hv : v ≤ 128) : 0 < bufferSize v := by
  obtain rfl | h3 : v = 2 ∨ 3 ≤ v := by omega
  · decide
  · have hgroup : 0 < groupCount v := Nat.div_pos hv (by omega)
    rw [bufferSize_of_three_le h3]
    exact Nat.mul_pos hgroup (Nat.two_pow_pos (v - 3))

theorem groupCount_bounds {v : Nat} (h2 : 2 ≤ v) (hv : v ≤ 64) : 2 ≤ groupCount v ∧ groupCount v ≤ 64 :=
  ⟨(Nat.le_div_iff_mul_le (by omega)).2 (by omega), Nat.div_le_of_le_mul (by omega)⟩

/-- The least `m(v)` is at `v = 2`: from `v = 7` on two groups have 256 bits already. -/
theorem le_bitCount {v : Nat} (h2 : 2 ≤ v) (hv : v ≤ 64) : 256 ≤ bitCount v := by
  obtain hsmall | h7 : v < 7 ∨ 7 ≤ v := by omega
  · interval_cases v <;> decide
  · obtain ⟨hgroup, -⟩ := groupCount_bounds h2 hv
    exact Nat.mul_le_mul hgroup (Nat.pow_le_pow_right (n := 2) (by decide) h7)

/-- The greatest `m(v)` is at `v = 64`: there are at most 64 groups up to `v = 58`, and two after. -/
theorem bitCount_le {v : Nat} (h2 : 2 ≤ v) (hv : v ≤ 64) : bitCount v ≤ 2 ^ 65 := by
  obtain hsmall | hlarge : v ≤ 58 ∨ 58 < v := by omega
  · obtain ⟨-, hgroup⟩ := groupCount_bounds h2 hv
    calc groupCount v * 2 ^ v
      _ ≤ 64 * 2 ^ 58 := Nat.mul_le_mul hgroup (Nat.pow_le_pow_right (by decide) hsmall)
      _ ≤ 2 ^ 65 := by decide
  · have hgroup : groupCount v ≤ 2 := Nat.le_of_lt_succ ((Nat.div_lt_iff_lt_mul (by omega)).2 (by omega))
    calc groupCount v * 2 ^ v
      _ ≤ 2 * 2 ^ 64 := Nat.mul_le_mul hgroup (Nat.pow_le_pow_right (by decide) hv)
      _ = 2 ^ 65 := by decide

/-- A derived index lies in the store: its group is one of the `k(v)` (41_index_derivation.md R145). -/
theorem lt_bitCount_of_mem_derive {v idx : Nat} {id : Identifier} (h : idx ∈ derive v id) : idx < bitCount v := by
  obtain ⟨i, hi⟩ := List.mem_iff_getElem?.1 h
  obtain ⟨hgroup, -⟩ := derive_getElem?_eq_some.1 hi
  rw [bitCount, ← Nat.div_lt_iff_lt_mul (Nat.two_pow_pos v), div_of_derive_getElem? hi]
  exact hgroup

theorem segCount_pos {mss v : Nat} (hmss : 0 < mss) (hsize : 0 < bufferSize v) : 0 < segCount mss v :=
  (lt_segCount_iff hmss).2 (by omega)

theorem segCount_le {mss v : Nat} (hmss : 0 < mss) : segCount mss v ≤ bufferSize v := by
  by_contra h
  have hlt := (lt_segCount_iff hmss).1 (Nat.lt_of_not_le h)
  exact absurd hlt (Nat.not_lt.2 (Nat.le_mul_of_pos_right _ hmss))

/-- A segment has a byte and no more than a segment may have. -/
theorem segLen_bounds {mss v i : Nat} (hmss : 0 < mss) (hi : i < segCount mss v) :
    1 ≤ segLen mss v i ∧ segLen mss v i ≤ mss := by
  have hstart := (lt_segCount_iff hmss).1 hi
  rw [segLen_eq_min hmss]
  omega

/-- Settles O29: the bounds of `m(v)` give those of the sizes and of the addresses. -/
theorem quantitiesStayInRange : Obligations.QuantitiesStayInRange := by
  intro mss v hmss _ h2 hv
  have hlow := le_bitCount h2 hv
  have hhigh := bitCount_le h2 hv
  refine ⟨groupCount_bounds h2 hv, ⟨hlow, hhigh⟩, ⟨?_, ?_⟩,
    ⟨segCount_pos hmss (bufferSize_pos h2 (by omega)), segCount_le hmss⟩, fun i hi => segLen_bounds hmss hi,
    fun id idx hidx => ?_⟩
  · unfold bufferSize; omega
  · unfold bufferSize; omega
  · have hstore := lt_bitCount_of_mem_derive hidx
    omega

/-! ### The segment list (40_configuration.md R108 to R110) -/

/-- Turn `i` of the loop takes what `i` full segments leave, up to one segment. -/
theorem segListLoop_getElem? {mss fuel remaining : Nat} (hmss : 0 < mss) (hfuel : remaining ≤ fuel) (i : Nat) :
    (segListLoop mss fuel remaining)[i]? =
      if i * mss < remaining then some (min mss (remaining - i * mss)) else none := by
  induction fuel generalizing remaining i with
  | zero => simp [segListLoop, Nat.le_zero.1 hfuel]
  | succ fuel ih =>
    unfold segListLoop
    split
    next hdone => simp [hdone]
    next hmore =>
      cases i with
      | zero => simp [Nat.pos_of_ne_zero hmore, Nat.min_comm]
      | succ i =>
        rw [List.getElem?_cons_succ, ih (by omega), Nat.add_one_mul]
        have hrest : remaining - min remaining mss - i * mss = remaining - (i * mss + mss) := by omega
        have hturn : i * mss < remaining - min remaining mss ↔ i * mss + mss < remaining := by omega
        simp only [hrest, hturn]

/-- The loop of R108 produces the closed form of R109. -/
theorem segList_eq_map_segLen {mss : Nat} (hmss : 0 < mss) (v : Nat) :
    segList mss v = (List.range (segCount mss v)).map (segLen mss v) := by
  apply List.ext_getElem?
  intro i
  rw [segList, segListLoop_getElem? hmss (Nat.le_refl _)]
  simp only [← lt_segCount_iff hmss, ← segLen_eq_min hmss]
  by_cases hi : i < segCount mss v <;> simp [hi]

/-- The first `n` segments hold `n` full ones, or the whole buffer where that is less. -/
theorem sum_range_segLen {mss : Nat} (hmss : 0 < mss) (v n : Nat) :
    ((List.range n).map (segLen mss v)).sum = min (n * mss) (bufferSize v) := by
  induction n with
  | zero => simp
  | succ n ih =>
    rw [List.sum_range_succ, ih, segLen_eq_min hmss, Nat.add_one_mul]
    omega

theorem bufferSize_le_segCount_mul {mss : Nat} (hmss : 0 < mss) (v : Nat) : bufferSize v ≤ segCount mss v * mss :=
  Nat.not_lt.1 fun h => Nat.lt_irrefl _ ((lt_segCount_iff hmss).2 h)

/-- Settles O28: the loop gives the closed form, whose first segments are full. -/
theorem segmentLengthsSumToBufferSize : Obligations.SegmentLengthsSumToBufferSize := by
  intro mss v hmss _
  rw [segList_eq_map_segLen hmss]
  have hsum : ((List.range (segCount mss v)).map (segLen mss v)).sum = bufferSize v := by
    rw [sum_range_segLen hmss]
    exact Nat.min_eq_right (bufferSize_le_segCount_mul hmss v)
  refine ⟨hsum, hsum, fun i hi => ?_⟩
  have hbefore : (((List.range (segCount mss v)).map (segLen mss v)).take i).sum = i * mss := by
    rw [← List.map_take, List.take_range, Nat.min_eq_left hi.le, sum_range_segLen hmss]
    exact Nat.min_eq_left ((lt_segCount_iff hmss).1 hi).le
  refine ⟨?_, hbefore⟩
  rw [hbefore, segLen_eq_min hmss, Nat.min_comm]

/-- What full segments leave is the remainder of the size, or one full segment where there is none. -/
theorem sub_mul_eq_mod {size mss q : Nat} (hlow : q * mss < size) (hhigh : size ≤ q * mss + mss) :
    size - q * mss = if size % mss = 0 then mss else size % mss := by
  obtain ⟨len, rfl⟩ : ∃ len, size = q * mss + len := ⟨size - q * mss, by omega⟩
  rw [Nat.add_sub_cancel_left, Nat.mul_add_mod']
  obtain rfl | hlen : len = mss ∨ len < mss := by omega
  · rw [Nat.mod_self, if_pos rfl]
  · rw [Nat.mod_eq_of_lt hlen, if_neg (by omega)]

theorem segLen_of_not_last {mss v i : Nat} (h : i + 1 < segCount mss v) : segLen mss v i = mss :=
  if_pos h

theorem segLen_last (mss v : Nat) :
    segLen mss v (segCount mss v - 1) = bufferSize v - (segCount mss v - 1) * mss :=
  if_neg (by omega)

/-- A buffer that fits one segment is one segment. -/
theorem segCount_eq_one {mss v : Nat} (hsize : 0 < bufferSize v) (h : bufferSize v ≤ mss) : segCount mss v = 1 := by
  have hmss : 0 < mss := by omega
  have hpos := segCount_pos hmss hsize
  have hone : ¬1 < segCount mss v := by
    rw [lt_segCount_iff hmss]
    omega
  omega

/-- Segment `i` holds the flat addresses whose quotient by the segment size is `i`. -/
theorem mem_segment_iff {mss : Nat} (hmss : 0 < mss) (v i a : Nat) :
    i * mss ≤ a ∧ a < i * mss + segLen mss v i ↔ a < bufferSize v ∧ a / mss = i := by
  rw [Nat.div_eq_iff hmss, segLen_eq_min hmss]
  omega

/-- Settles O27: the loop gives the closed form, and the last segment begins inside the buffer. -/
theorem segmentListHasItsClosedForm : Obligations.SegmentListHasItsClosedForm := by
  intro mss v hmss h2 hv n size
  have hsize : 0 < bufferSize v := bufferSize_pos h2 hv
  have hn : 0 < segCount mss v := segCount_pos hmss hsize
  have hstart : (segCount mss v - 1) * mss < bufferSize v := (lt_segCount_iff hmss).1 (by omega)
  have hend : bufferSize v ≤ (segCount mss v - 1) * mss + mss := by
    rw [← Nat.add_one_mul, Nat.sub_add_cancel hn]
    exact bufferSize_le_segCount_mul hmss v
  refine ⟨by simp [segList_eq_map_segLen hmss, n], hstart, bufferSize_le_segCount_mul hmss v, fun i hi => ?_,
    fun _ => segLen_of_not_last, segLen_last mss v, (segLen_last mss v).trans (sub_mul_eq_mod hstart hend), ?_,
    fun hfits => ?_, fun i a _ => mem_segment_iff hmss v i a⟩
  · rw [segList_eq_map_segLen hmss, List.getElem?_map, List.getElem?_range hi, Option.map_some]
  · obtain ⟨hlen, -⟩ := segLen_bounds hmss (show n - 1 < segCount mss v by omega)
    omega
  · have hone := segCount_eq_one hsize hfits
    exact ⟨hone, by simpa [hone] using segLen_last mss v⟩

/-! ### INIT and DESC in every case (40_configuration.md R112 to R116) -/

theorem variantOperand_of_lt_two {c : Config} {var : Int} (h : var < 2) :
    variantOperand c var = .error .invalidVariant :=
  variantOperand_eq_error.2 (.inl ⟨h, rfl⟩)

theorem variantOperand_of_vMax_lt {c : Config} {var : Int} (h2 : 2 ≤ var) (h : (c.vMax : Int) < var) :
    variantOperand c var = .error .unsupportedVariant :=
  variantOperand_eq_error.2 (.inr ⟨h2, h, rfl⟩)

theorem variantOperand_of_supported {c : Config} {var : Int} (h2 : 2 ≤ var) (hv : var ≤ c.vMax) :
    variantOperand c var = .ok var.toNat :=
  variantOperand_eq_ok.2 ⟨h2, hv, rfl⟩

theorem exec_init_of_error {s : State} {var : Int} {e : UnitError} (h : variantOperand s.config var = .error e) :
    exec (.init var) s = .next (s.answer (errorResponse e)) := by
  simp only [exec, execInit, h, raise_eq]

theorem exec_desc_of_error {s : State} {var : Int} {e : UnitError} (h : variantOperand s.config var = .error e) :
    exec (.desc var) s = .next (s.answer (errorResponse e)) := by
  simp only [exec, execDesc, h, raise_eq]

theorem exec_init_of_supported {s : State} {var : Int} (h2 : 2 ≤ var) (hv : var ≤ s.config.vMax) :
    exec (.init var) s =
      .next ((constructFilter var.toNat s).answer (okResponse noFlag (initBeats s.mss var.toNat))) := by
  simp only [exec, execInit, variantOperand_of_supported h2 hv, respond_eq]

theorem exec_desc_of_supported {s : State} {var : Int} (h2 : 2 ≤ var) (hv : var ≤ s.config.vMax) :
    exec (.desc var) s = .next (s.answer (okResponse noFlag (describeBeats var.toNat))) := by
  simp only [exec, execDesc, variantOperand_of_supported h2 hv, respond_eq]

theorem runCommand_of_not_legal {cw : CommandWord} (h : ∀ i, decode cw ≠ .legal i) (s : State) :
    runCommand cw s = .next (s.answer (errorResponse .illegalCommand)) := by
  unfold runCommand
  split
  next i hi => exact absurd hi (h i)
  next => exact raise_eq ..

/-- A format V word with a reserved bit set decodes to no command (30_encoding.md R83). -/
theorem formatV_reserved_not_legal {cw : CommandWord} (hop : opOf cw = 0x01#8 ∨ opOf cw = 0x02#8)
    (hreserved : auxOf cw ≠ 0#8 ∨ cwField cw 32 96 ≠ 0#96) (i : Instr) : decode cw ≠ .legal i := by
  intro hlegal
  have hholds := decode_eq_legal_iff.1 hlegal
  cases i with
  | init var | desc var =>
    obtain ⟨-, haux, hzero, -⟩ := hholds
    exact hreserved.elim (· haux) (· hzero)
  | _ =>
    obtain ⟨hop', -⟩ := hholds
    rw [hop'] at hop
    exact absurd hop (by decide)

/-- The segments just after INIT: `NSEG` arrays of zero bytes (R109, R111). -/
theorem segView_constructFilter {s : State} {v : Nat} (hv : v ≤ 64) :
    segView (constructFilter v s) =
      some ((List.range (segCount s.mss v)).map fun g => List.replicate (segLen s.mss v g) 0#8) := by
  simp [segView, constructFilter_variant v s hv, Memory.unlisted]

/-- Settles O23: the three answers of the operand check, and the view of an all-zero store. -/
theorem initBuildsAFilter : Obligations.InitBuildsAFilter := by
  refine fun s var => ⟨fun hlow => exec_init_of_error (variantOperand_of_lt_two hlow),
    fun h2 hhigh => exec_init_of_error (variantOperand_of_vMax_lt h2 hhigh), fun h2 hv => ?_,
    fun cw hop hreserved => runCommand_of_not_legal (formatV_reserved_not_legal (.inl hop) hreserved) s⟩
  refine ⟨exec_init_of_supported h2 hv, fun ⟨_, _, _, hmax⟩ => ?_⟩
  have hfits : var.toNat ≤ 64 := by omega
  exact ⟨constructFilter_variant var.toNat s hfits, segView_constructFilter hfits⟩

/-- Settles O24: the three answers of the operand check. -/
theorem descDescribesAVariant : Obligations.DescDescribesAVariant :=
  fun s _ => ⟨fun hlow => exec_desc_of_error (variantOperand_of_lt_two hlow),
    fun h2 hhigh => exec_desc_of_error (variantOperand_of_vMax_lt h2 hhigh),
    fun h2 hv => exec_desc_of_supported h2 hv,
    fun _ hop hreserved => runCommand_of_not_legal (formatV_reserved_not_legal (.inr hop) hreserved) s⟩

/-! ### The filter just after INIT (40_configuration.md R111, 70_reset_and_hazards.md R251) -/

/-- A successful INIT leaves `Empty(v)`, whatever was there before. -/
theorem empty_constructFilter {s : State} {v : Nat} (h2 : 2 ≤ v) (hv : v ≤ s.config.vMax) (hmax : s.config.vMax ≤ 64) :
    Empty v (constructFilter v s) := by
  have hshape : storeShape v (some Memory.zeroFilled) = true :=
    storeShape_iff.2 ⟨Memory.zeroFilled, rfl, Memory.wf_zeroFilled, rfl⟩
  exact ⟨⟨rfl, constructFilter_variant v s (by omega), h2, hv, hshape⟩, rfl⟩

theorem exec_rdbyte_of_memRead {s : State} {g o : Nat} {x : Byte} (h : memRead s g o = some x) :
    exec (.rdbyte g o) s = .next (answered s 0#4 false [zext128 x.toNat]) := by
  obtain ⟨hcell, -⟩ := memRead_eq_some.1 h
  simp only [exec, execRdbyte, cellOperand_eq_ok (u := ()).2 hcell, h, respond_eq]
  rfl

theorem exec_has_of_allBitsSet {s : State} {id : Identifier} {flag : Bool} (hc : s.cfg = true)
    (h : allBitsSet s (derive s.variant id) = some flag) :
    exec (.has 16 id) s = .next (answered s 0#4 flag []) := by
  simp only [exec, execHas, identifierOperand_eq_ok.2 ⟨hc, rfl, rfl⟩, h, respond_eq]
  rfl

theorem derive_ne_nil {v : Nat} (h2 : 2 ≤ v) (hv : v ≤ 64) (id : Identifier) : derive v id ≠ [] := by
  obtain ⟨hgroup, -⟩ := groupCount_bounds h2 hv
  simp only [derive, indices, ne_eq, List.map_eq_nil_iff, List.range_eq_nil]
  omega

section Empty
variable {v : Nat} {s : State}

/-- Every cell of an empty store reads zero. -/
theorem memRead_of_empty (h : Empty v s) {g o : Nat} (hcell : cellExists s g o = true) :
    memRead s g o = some 0#8 := by
  obtain ⟨-, hseg⟩ := h
  rw [memRead_eq hseg, if_pos hcell, Memory.read_zeroFilled, Memory.unlisted]

/-- The cell of an index below `m(V)` exists (20_memory.md R43). -/
theorem indexExists_of_lt (h : Configured v s) (hmss : 1 ≤ s.mss) (hv : v ≤ 64) {idx : Nat} (hidx : idx < bitCount v) :
    indexExists s idx := by
  obtain ⟨hc, rfl, h2, -⟩ := h
  obtain ⟨hseg, hoff, -⟩ := locateStaysInTheStore s.mss s.variant idx hmss h2 hv hidx
  exact cellExists_iff.2 ⟨hc, hseg, hoff⟩

/-- In an empty store the first index that HAS tests is 0. -/
theorem allBitsSet_derive_of_empty (h : Empty v s) (hmss : 1 ≤ s.mss) (hv : v ≤ 64) (id : Identifier) :
    allBitsSet s (derive v id) = some false := by
  have ⟨hconf, hseg⟩ := h
  have ⟨_, _, h2, _⟩ := hconf
  obtain ⟨i, rest, hderive⟩ := List.exists_cons_of_ne_nil (derive_ne_nil h2 hv id)
  have hi : i < bitCount v := lt_bitCount_of_mem_derive (id := id) (by simp [hderive])
  have htest : bitTest s i = some 0 :=
    bitTest_eq_some.2 ⟨indexExists_of_lt hconf hmss hv hi, _, hseg, by simp [bitOfNat, Memory.unlisted]⟩
  simp [hderive, allBitsSet, htest]

end Empty

/-- Settles O25: a new filter is `Empty(v)`, and every cell of an empty store reads zero. -/
theorem newFilterIsEmpty : Obligations.NewFilterIsEmpty := by
  rintro s t var ⟨hmss, -, -, hmax⟩ h2 hv h
  rw [exec_init_of_supported h2 hv, Host.Outcome.next.injEq] at h
  subst h
  have hsupported : var.toNat ≤ s.config.vMax := by omega
  have hempty : Empty var.toNat
      ((constructFilter var.toNat s).answer (okResponse noFlag (initBeats s.mss var.toNat))) :=
    empty_constructFilter (s := s) (by omega) hsupported hmax
  have ⟨⟨hc, hvar, _⟩, _⟩ := hempty
  refine ⟨hempty, fun g o hg ho => ?_, fun id => ?_⟩
  · rw [← hvar] at hg ho
    exact exec_rdbyte_of_memRead (memRead_of_empty hempty (cellExists_iff.2 ⟨hc, hg, ho⟩))
  · apply exec_has_of_allBitsSet hc
    rw [hvar]
    exact allBitsSet_derive_of_empty hempty hmss (by omega) id

end Sys2Proof.Machine

namespace Sys2Proof.Machine

open Sys2Proof.Safety

/-! ### Digits written most significant first (00_scope.md R12) -/

/-- The first `n` digits of `u` in base `2 ^ w` as one integer, digit 0 the most significant. -/
def bigEndian (w : Nat) (u : Nat → Nat) (n : Nat) : Nat :=
  ((List.range n).map fun j => u j * 2 ^ (w * (n - 1 - j))).sum

section bigEndian
variable {w : Nat} {u : Nat → Nat}

theorem bigEndian_succ (n : Nat) : bigEndian w u (n + 1) = bigEndian w u n * 2 ^ w + u n := by
  have hshift : ∀ j ∈ List.range n,
      u j * 2 ^ (w * (n + 1 - 1 - j)) = u j * 2 ^ (w * (n - 1 - j)) * 2 ^ w := by
    intro j hj
    have hexp : n + 1 - 1 - j = n - 1 - j + 1 := by have := List.mem_range.1 hj; omega
    rw [hexp, Nat.mul_add_one, Nat.pow_add, Nat.mul_assoc]
  rw [bigEndian, List.sum_range_succ, List.map_congr_left hshift, List.sum_map_mul_right]
  simp [bigEndian]

theorem bigEndian_div_pow (hu : ∀ j, u j < 2 ^ w) (n m : Nat) :
    bigEndian w u (n + m) / 2 ^ (w * m) = bigEndian w u n := by
  induction m with
  | zero => simp
  | succ m ih =>
    rw [Nat.mul_add_one, Nat.add_comm (w * m), Nat.pow_add, ← Nat.div_div_eq_div_mul, ← Nat.add_assoc, bigEndian_succ,
      Nat.mul_comm _ (2 ^ w), Nat.mul_add_div (Nat.two_pow_pos w), Nat.div_eq_of_lt (hu _), Nat.add_zero, ih]

/-- Digit `j` is read back from the integer. -/
theorem bigEndian_digit (hu : ∀ j, u j < 2 ^ w) {n j : Nat} (hj : j < n) :
    bigEndian w u n / 2 ^ (w * (n - 1 - j)) % 2 ^ w = u j := by
  obtain ⟨m, rfl⟩ := Nat.exists_eq_add_of_lt hj
  have hm : j + m + 1 - 1 - j = m := by omega
  rw [hm, Nat.add_right_comm, bigEndian_div_pow hu, bigEndian_succ, Nat.mul_add_mod', Nat.mod_eq_of_lt (hu j)]

theorem bigEndian_lt (hu : ∀ j, u j < 2 ^ w) (n : Nat) : bigEndian w u n < 2 ^ (w * n) := by
  have hnone := bigEndian_div_pow hu 0 n
  rw [Nat.zero_add] at hnone
  exact Nat.lt_of_div_eq_zero (Nat.two_pow_pos _) hnone

end bigEndian

/-! ### The bytes of an identifier (41_index_derivation.md R131 to R134) -/

/-- Bit `b` of byte `j` is position `8 * j + (7 - b)` of the identifier. -/
theorem testBit_inputByte (id : Identifier) {j b : Nat} (hj : j < 16) (hb : b < 8) :
    (inputByte id j).testBit b = id.getMsbD (8 * j + (7 - b)) := by
  have hin : 120 - 8 * j + b < 128 := by omega
  have hpos : 128 - 1 - (120 - 8 * j + b) = 8 * j + (7 - b) := by omega
  rw [inputByte_eq id hj, BitVec.testBit_toNat, BitVec.getLsbD_extractLsb', BitVec.getLsbD_eq_getMsbD, hpos]
  simp [hb, hin]

theorem inputByte_lt (id : Identifier) (j : Nat) : inputByte id j < 2 ^ 8 := by
  have hwidth : 127 - 8 * j - (120 - 8 * j) + 1 ≤ 8 := by omega
  exact (Nat.mod_lt _ (Nat.two_pow_pos _)).trans_le (Nat.pow_le_pow_right (by decide) hwidth)

theorem bitOfNat_zero (x : Nat) : bitOfNat x 0 = x % 2 := by
  rw [bitOfNat, Nat.pow_zero, Nat.div_one]

theorem substitutedByte_lt (id : Identifier) (j : Nat) : substitutedByte id j < 2 ^ 8 := by
  unfold substitutedByte
  split_ifs
  · simp only [substitutedByte6, bitOfNat_zero]; omega
  · simp only [substitutedByte8, bitOfNat_zero]; omega
  · exact inputByte_lt id j

/-- ORing in a value above the bits of `a` adds it. -/
theorem or_shiftLeft_eq_add {a n : Nat} (ha : a < 2 ^ n) (b : Nat) : a ||| b <<< n = a + b * 2 ^ n := by
  rw [Nat.or_comm, ← Nat.shiftLeft_add_eq_or_of_lt ha, Nat.shiftLeft_eq, Nat.add_comm]

/-- Settles O30: each OR brings in one bit above those already there, so it is the sum of R132 and R133. -/
theorem entropySubstitution : Obligations.EntropySubstitution := by
  intro id b
  have hb : ∀ j, j < 16 → b j = inputByte id j := fun j hj => (inputByte_eq id hj).symm
  have hlow4 : ∀ x, x &&& 0x0F = x % 16 := fun x => Nat.and_two_pow_sub_one_eq_mod x 4
  have hlow6 : ∀ x, x &&& 0x3F = x % 64 := fun x => Nat.and_two_pow_sub_one_eq_mod x 6
  refine ⟨?_, ?_, fun j hj h6 h8 => ?_⟩
  · show substitutedByte6 id = _
    rw [hb 6 (by decide), hb 0 (by decide), hb 1 (by decide), hb 2 (by decide), hb 3 (by decide)]
    simp only [substitutedByte6, bitOfNat_zero, hlow4, Nat.and_one_is_mod]
    rw [or_shiftLeft_eq_add (n := 4) (by omega), or_shiftLeft_eq_add (n := 5) (by omega),
      or_shiftLeft_eq_add (n := 6) (by omega), or_shiftLeft_eq_add (n := 7) (by omega)]
    omega
  · show substitutedByte8 id = _
    rw [hb 8 (by decide), hb 4 (by decide), hb 5 (by decide)]
    simp only [substitutedByte8, bitOfNat_zero, hlow6, Nat.and_one_is_mod]
    rw [or_shiftLeft_eq_add (n := 6) (by omega), or_shiftLeft_eq_add (n := 7) (by omega)]
    omega
  · rw [hb j hj, substitutedByte, if_neg h6, if_neg h8]

/-! ### The bit string and its slices (R138) -/

/-- The string positions `p` to `p + n - 1` of `w` as one value, most significant first. -/
def stringSlice (w p n : Nat) : Nat := w / 2 ^ (128 - (p + n)) % 2 ^ n

theorem stringSlice_zero (w p : Nat) : stringSlice w p 0 = 0 := Nat.mod_one _

/-- A slice cut in two is its leading part above its trailing part. -/
theorem stringSlice_add (w : Nat) {p a b : Nat} (h : p + a + b ≤ 128) :
    stringSlice w p (a + b) = stringSlice w p a * 2 ^ b + stringSlice w (p + a) b := by
  have hlead : 128 - (p + a) = 128 - (p + a + b) + b := by omega
  rw [stringSlice, stringSlice, stringSlice, hlead, ← Nat.add_assoc, Nat.add_comm a b, Nat.pow_add, Nat.mod_mul,
    Nat.pow_add 2 _ b, Nat.div_div_eq_div_mul]
  ring

theorem bitString_eq_bigEndian (id : Identifier) : bitString id = bigEndian 8 (substitutedByte id) 16 := rfl

theorem bitString_lt (id : Identifier) : bitString id < 2 ^ 128 := bigEndian_lt (substitutedByte_lt id) 16

/-- Byte `j` of the string. -/
theorem bitString_byte (id : Identifier) {j : Nat} (hj : j < 16) :
    bitString id / 2 ^ (8 * (15 - j)) % 2 ^ 8 = substitutedByte id j := by
  rw [bitString_eq_bigEndian]
  exact bigEndian_digit (substitutedByte_lt id) hj

/-- A field of a field is a field. -/
theorem div_mod_div_mod (x a : Nat) {b c n : Nat} (h : b + n ≤ c) :
    x / 2 ^ a % 2 ^ c / 2 ^ b % 2 ^ n = x / 2 ^ (a + b) % 2 ^ n := by
  obtain ⟨d, rfl⟩ := Nat.exists_eq_add_of_le h
  rw [Nat.add_assoc, Nat.pow_add 2 b, Nat.mod_mul_right_div_self, Nat.pow_add 2 n, Nat.mod_mul_right_mod,
    Nat.div_div_eq_div_mul, ← Nat.pow_add]

/-- A slice that stays within one byte is a field of that byte. -/
theorem stringSlice_within_byte (id : Identifier) {p n : Nat} (hp : p < 128) (hn : p % 8 + n ≤ 8) :
    stringSlice (bitString id) p n = substitutedByte id (p / 8) / 2 ^ (8 - p % 8 - n) % 2 ^ n := by
  have hshift : 128 - (p + n) = 8 * (15 - p / 8) + (8 - p % 8 - n) := by omega
  rw [← bitString_byte id (by omega), div_mod_div_mod _ _ (by omega), stringSlice, hshift]

theorem stringSlice_one (id : Identifier) {p : Nat} (hp : p < 128) :
    stringSlice (bitString id) p 1 = stringBit (substitutedByte id) p := by
  have hshift : 8 - p % 8 - 1 = 7 - p % 8 := by omega
  rw [stringSlice_within_byte id hp (by omega), hshift]
  rfl

/-- Settles O31: the bytes are the digits of `W` in base 256, and a bit is a slice of length 1. -/
theorem bitStringIsBigEndian : Obligations.BitStringIsBigEndian := by
  refine fun id => ⟨rfl, bitString_lt id, fun p hp => ?_⟩
  have hshift : 127 - p = 128 - (p + 1) := by omega
  rw [hshift]
  exact stringSlice_one id hp

/-! ### The value of a group (R139, R141) -/

/-- A slice reads its positions most significant first. -/
theorem stringSlice_eq_bigEndian (id : Identifier) {p n : Nat} (h : p + n ≤ 128) :
    stringSlice (bitString id) p n = bigEndian 1 (fun t => stringBit (substitutedByte id) (p + t)) n := by
  induction n with
  | zero => exact stringSlice_zero (bitString id) p
  | succ n ih => rw [stringSlice_add _ h, bigEndian_succ, ih (by omega), stringSlice_one id (by omega)]

theorem group_eq_stringSlice (v w i : Nat) : group v w i = stringSlice w (i * v) v := by
  rw [group, stringSlice, Nat.add_one_mul]

theorem group_lt (v w i : Nat) : group v w i < 2 ^ v := Nat.mod_lt _ (Nat.two_pow_pos v)

/-- A group lies within the string. -/
theorem group_end_le {v i : Nat} (hi : i < groupCount v) : i * v + v ≤ 128 := by
  rw [← Nat.add_one_mul]
  exact (Nat.mul_le_mul_right v hi).trans (Nat.div_mul_le_self 128 v)

/-- Settles O33: a group is a slice of the string, and a slice reads its positions most significant first. -/
theorem groupReadsItsPositions : Obligations.GroupReadsItsPositions := by
  intro id v i h2 _ hi
  have hend := group_end_le hi
  have hwidth : 127 - i * v - (128 - (i + 1) * v) + 1 = v := by rw [Nat.add_one_mul]; omega
  refine ⟨?_, ?_, rfl, group_lt v (bitString id) i⟩
  · rw [group_eq_stringSlice, stringSlice_eq_bigEndian id hend, bigEndian]
    simp only [Nat.one_mul]
  · rw [field, hwidth]
    rfl

/-- Each turn of the loop appends the part of the slice that lies in one byte. -/
theorem assembleLoop_eq (id : Identifier) {fuel p rem : Nat} (g : Nat) (hfuel : rem ≤ fuel) (hend : p + rem ≤ 128) :
    assembleLoop (substitutedByte id) fuel p rem g = g * 2 ^ rem + stringSlice (bitString id) p rem := by
  induction fuel generalizing p rem g with
  | zero => simp [assembleLoop, Nat.le_zero.1 hfuel, stringSlice_zero]
  | succ fuel ih =>
    unfold assembleLoop
    split
    next hdone => simp [hdone, stringSlice_zero]
    next hmore =>
      dsimp only
      generalize htake : min (8 - p % 8) rem = take
      obtain ⟨left, rfl⟩ : ∃ left, rem = take + left := ⟨rem - take, by omega⟩
      rw [← stringSlice_within_byte id (by omega) (by omega), Nat.add_sub_cancel_left,
        ih _ (by omega) (by omega), stringSlice_add _ (by omega), Nat.pow_add]
      ring

/-- Settles O34: the loop assembles the slice that the group is, and `v` adjoining bits span that many bytes. -/
theorem groupAssembledFromBytes : Obligations.GroupAssembledFromBytes := by
  intro id v i h2 _ hi
  refine ⟨?_, by omega⟩
  rw [assembleGroup, assembleLoop_eq id 0 (Nat.le_refl v) (group_end_le hi), group_eq_stringSlice, Nat.zero_mul,
    Nat.zero_add]

/-! ### The indices (R143 to R147) -/

theorem index_mod (v w i : Nat) : index v w i % 2 ^ v = group v w i := by
  rw [index, Nat.add_mul_mod_self_right, Nat.mod_eq_of_lt (group_lt v w i)]

/-- Settles O35: the group value lies below the bits of the group number. -/
theorem indexIsAConcatenation : Obligations.IndexIsAConcatenation := by
  refine fun v w i => ⟨?_, index_div v w i, index_mod v w i⟩
  rw [index, ← or_shiftLeft_eq_add (group_lt v w i), Nat.shiftLeft_eq, Nat.or_comm]

theorem index_lt_index {i j : Nat} (h : i < j) (v w : Nat) : index v w i < index v w j := by
  rw [← index_div v w i, ← index_div v w j] at h
  exact Nat.lt_of_div_lt_div h

theorem map_div_derive (v : Nat) (id : Identifier) :
    (derive v id).map (fun x => x / 2 ^ v) = List.range (groupCount v) := by
  simp [derive, indices, Function.comp_def, index_div]

/-- Settles O36: the quotient of an index by `2 ^ v` is its group number. -/
theorem indicesLieInDisjointRanges : Obligations.IndicesLieInDisjointRanges := by
  intro id v _ _
  refine ⟨map_div_derive v id, List.pairwise_lt_range.map _ fun _ _ h => index_lt_index h v (bitString id),
    fun i x hx => ?_⟩
  have hgroup : i < groupCount v := (derive_getElem?_eq_some.1 hx).1
  have hpos := Nat.two_pow_pos v
  obtain ⟨hlow, hhigh⟩ := (Nat.div_eq_iff hpos).1 (div_of_derive_getElem? hx)
  exact ⟨hlow, by rw [Nat.add_one_mul]; omega, Nat.mul_le_mul_right _ hgroup⟩

/-! ### The overwritten bits (R135) -/

/-- The identifiers agree on every position outside 48 to 51, 64 and 65, the six bits that the substitution overwrites. -/
def AgreeOutsideOverwritten (id id' : Identifier) : Prop :=
  ∀ p, p < 128 → ¬(48 ≤ p ∧ p ≤ 51) → p ≠ 64 → p ≠ 65 → id.getMsbD p = id'.getMsbD p

/-- The low `n` bits of a byte are equal when none of them is overwritten. -/
theorem inputByte_mod_congr {id id' : Identifier} (h : AgreeOutsideOverwritten id id') {j n : Nat} (hj : j < 16)
    (hn : n ≤ 8) (h6 : j = 6 → n ≤ 4) (h8 : j = 8 → n ≤ 6) : inputByte id j % 2 ^ n = inputByte id' j % 2 ^ n := by
  apply Nat.eq_of_testBit_eq
  intro b
  rw [Nat.testBit_mod_two_pow, Nat.testBit_mod_two_pow]
  by_cases hb : b < n
  · rw [testBit_inputByte id hj (by omega), testBit_inputByte id' hj (by omega),
      h _ (by omega) (by omega) (by omega) (by omega)]
  · simp [hb]

theorem inputByte_congr {id id' : Identifier} (h : AgreeOutsideOverwritten id id') {j : Nat} (hj : j < 16)
    (h6 : j ≠ 6) (h8 : j ≠ 8) : inputByte id j = inputByte id' j := by
  have hmod := inputByte_mod_congr h hj (Nat.le_refl 8) (absurd · h6) (absurd · h8)
  rwa [Nat.mod_eq_of_lt (inputByte_lt id j), Nat.mod_eq_of_lt (inputByte_lt id' j)] at hmod

/-- The substitution discards the overwritten bits and reads none of them. -/
theorem substitutedByte_congr {id id' : Identifier} (h : AgreeOutsideOverwritten id id') {j : Nat} (hj : j < 16) :
    substitutedByte id j = substitutedByte id' j := by
  have hbyte : ∀ j, j < 16 → j ≠ 6 → j ≠ 8 → inputByte id j = inputByte id' j := fun _ => inputByte_congr h
  have hbyte6 : inputByte id 6 % 16 = inputByte id' 6 % 16 :=
    inputByte_mod_congr (n := 4) h (by decide) (by decide) (by decide) (by decide)
  have hbyte8 : inputByte id 8 % 64 = inputByte id' 8 % 64 :=
    inputByte_mod_congr (n := 6) h (by decide) (by decide) (by decide) (by decide)
  unfold substitutedByte
  split_ifs with h6 h8
  · rw [substitutedByte6, substitutedByte6, hbyte6, hbyte 0, hbyte 1, hbyte 2, hbyte 3] <;> decide
  · rw [substitutedByte8, substitutedByte8, hbyte8, hbyte 4, hbyte 5] <;> decide
  · exact hbyte j hj h6 h8

theorem bitString_congr {id id' : Identifier} (h : AgreeOutsideOverwritten id id') : bitString id = bitString id' := by
  unfold bitString
  rw [List.map_congr_left fun j hj => by rw [substitutedByte_congr h (List.mem_range.1 hj)]]

theorem derive_congr {id id' : Identifier} (h : AgreeOutsideOverwritten id id') (v : Nat) :
    derive v id = derive v id' := by
  rw [derive, derive, bitString_congr h]

/-- ADD, HAS and DERIVE see an identifier through its derived indices alone. -/
theorem identifierOperand_congr {id id' : Identifier} (h : AgreeOutsideOverwritten id id') (n : Nat) (s : State) :
    identifierOperand n id s = identifierOperand n id' s := by
  rw [identifierOperand, identifierOperand, derive_congr h]

theorem exec_derive_congr {id id' : Identifier} (h : AgreeOutsideOverwritten id id') (n : Nat) (s : State) :
    exec (.derive n id) s = exec (.derive n id') s := by
  rw [exec, exec, execDerive, execDerive, identifierOperand_congr h]

/-- Settles O32: the substituted bytes are equal, so every command sees the same operand. -/
theorem overwrittenBitsNeverMatter : Obligations.OverwrittenBitsNeverMatter := by
  refine fun id id' h v => ⟨derive_congr h v, fun n s => ⟨?_, ?_, exec_derive_congr h n s⟩⟩
  · rw [exec, exec, execAdd, execAdd, identifierOperand_congr h]
  · rw [exec, exec, execHas, execHas, identifierOperand_congr h]

/-! ### DERIVE in every case (R148) -/

theorem exec_derive_of_error {n : Nat} {id : Identifier} {s : State} {e : UnitError}
    (h : identifierOperand n id s = .error e) : exec (.derive n id) s = .next (s.answer (errorResponse e)) := by
  simp only [exec, execDerive, h, raise_eq]

theorem exec_derive_of_configured {s : State} (hc : s.cfg = true) (id : Identifier) :
    exec (.derive 16 id) s = .next (answered s 0#4 false
      ((List.range (groupCount s.variant)).map fun i => zext128 (index s.variant (bitString id) i))) := by
  simp only [exec, execDerive, identifierOperand_eq_ok.2 ⟨hc, rfl, rfl⟩, respond_eq, derive, indices, List.map_map]
  rfl

/-- The string of zeros has every group zero. -/
theorem index_zero (v i : Nat) : index v 0 i = i * 2 ^ v := by
  simp [index, group]

/-- The string of ones has every group `2 ^ v - 1`. -/
theorem index_ones {v i : Nat} (hi : i < groupCount v) : index v (2 ^ 128 - 1) i = (i + 1) * 2 ^ v - 1 := by
  have hend := group_end_le hi
  have hgroup : group v (2 ^ 128 - 1) i = 2 ^ v - 1 := by
    apply Nat.eq_of_testBit_eq
    intro b
    have hin : b < v → b + (128 - (i * v + v)) < 128 := by omega
    rw [group, Nat.add_one_mul, Nat.testBit_mod_two_pow, Nat.testBit_div_two_pow, Nat.testBit_two_pow_sub_one,
      Nat.testBit_two_pow_sub_one]
    simpa using hin
  have hpos := Nat.two_pow_pos v
  rw [index, hgroup, Nat.add_one_mul]
  omega

theorem bitString_zero : bitString 0#128 = 0 := by decide

theorem bitString_allOnes : bitString (BitVec.allOnes 128) = 2 ^ 128 - 1 := by decide

/-- The mask keeps every position but the six that are overwritten. -/
theorem agreeOutsideOverwritten_of_and_mask {id id' : Identifier}
    (h : id &&& 0xffffffffffff0fff3fffffffffffffff#128 = id' &&& 0xffffffffffff0fff3fffffffffffffff#128) :
    AgreeOutsideOverwritten id id' := by
  intro p hp h6 h64 h65
  have hmask : ∀ p, p < 128 → ¬(48 ≤ p ∧ p ≤ 51) → p ≠ 64 → p ≠ 65 →
      (0xffffffffffff0fff3fffffffffffffff#128).getMsbD p = true := by decide
  have hbit := congrArg (·.getMsbD p) h
  simpa only [BitVec.getMsbD_and, hmask p hp h6 h64 h65, Bool.and_true] using hbit

/-- Settles O38: the three answers of the operand check, and the indices of the all-zero and the all-ones string. -/
theorem deriveReturnsTheIndices : Obligations.DeriveReturnsTheIndices := by
  refine fun s n id => ⟨fun hc => exec_derive_of_error (identifierOperand_eq_error.2 (.inl ⟨hc, rfl⟩)),
    fun hc hn => exec_derive_of_error (identifierOperand_eq_error.2 (.inr ⟨hc, hn, rfl⟩)),
    fun hc => exec_derive_of_configured hc id, fun hs hc => ⟨?_, ?_, ?_⟩,
    fun id' h => exec_derive_congr (agreeOutsideOverwritten_of_and_mask h) n s⟩
  · have hlen := length_derive_le hs hc id
    rwa [derive, indices, List.length_map, List.length_range] at hlen
  · rw [exec_derive_of_configured hc, bitString_zero]
    simp only [index_zero]
    rfl
  · rw [exec_derive_of_configured hc, bitString_allOnes,
      List.map_congr_left fun i hi => by rw [index_ones (List.mem_range.1 hi)]]
    rfl

end Sys2Proof.Machine

namespace Sys2Proof.Machine

open Sys2Proof.Safety

/-! ### The bits that the groups read (41_index_derivation.md R140, 42_bit_access.md R174) -/

/-- Two slices are equal exactly when their positions are, one by one. -/
theorem stringSlice_eq_iff (w w' : Nat) {p n : Nat} (h : p + n ≤ 128) :
    stringSlice w p n = stringSlice w' p n ↔ ∀ t, t < n → stringSlice w (p + t) 1 = stringSlice w' (p + t) 1 := by
  induction n with
  | zero => simp [stringSlice_zero]
  | succ n ih =>
    have hbit : ∀ x, stringSlice x (p + n) 1 < 2 := fun _ => Nat.mod_lt _ (by decide)
    have hlast := hbit w
    have hlast' := hbit w'
    rw [stringSlice_add w h, stringSlice_add w' h, Nat.forall_lt_succ_right, ← ih (by omega)]
    omega

theorem derive_eq_iff {x y : Identifier} {v : Nat} :
    derive v x = derive v y ↔ ∀ i, i < groupCount v → group v (bitString x) i = group v (bitString y) i := by
  simp [derive, indices, index]

/-- Groups are equal exactly when the substituted identifiers agree on the positions that the group reads. -/
theorem group_eq_iff {x y : Identifier} {v i : Nat} (hi : i < groupCount v) :
    group v (bitString x) i = group v (bitString y) i ↔
      ∀ t, t < v → stringBit (substitutedByte x) (i * v + t) = stringBit (substitutedByte y) (i * v + t) := by
  have hend := group_end_le hi
  rw [group_eq_stringSlice, group_eq_stringSlice, stringSlice_eq_iff _ _ hend]
  refine forall₂_congr fun t ht => ?_
  rw [stringSlice_one x (by omega), stringSlice_one y (by omega)]

/-- Settles O37: position `p` is read by group `p / v` as its bit `p % v`, and by no other. -/
theorem equalIndicesExactlyWhenReadBitsAgree : Obligations.EqualIndicesExactlyWhenReadBitsAgree := by
  intro x y v h2 _
  rw [derive_eq_iff]
  constructor
  · intro h p hp
    have hi : p / v < groupCount v := (Nat.div_lt_iff_lt_mul (by omega)).2 hp
    have hbit := (group_eq_iff hi).1 (h _ hi) (p % v) (Nat.mod_lt p (by omega))
    rwa [Nat.div_add_mod'] at hbit
  · intro h i hi
    refine (group_eq_iff hi).2 fun t ht => h _ ?_
    calc i * v + t
      _ < i * v + v := by omega
      _ = (i + 1) * v := (Nat.add_one_mul i v).symm
      _ ≤ groupCount v * v := Nat.mul_le_mul_right v hi

/-! ### Stores told apart by their bits -/

/-- Two bytes with the same eight bits are equal. -/
theorem byte_eq_of_bits {x y : Byte} (h : ∀ b, b < 8 → bitOfNat x.toNat b = bitOfNat y.toNat b) : x = y := by
  refine BitVec.eq_of_getLsbD_eq fun b hb => ?_
  have hbit := h b hb
  rw [bitOfNat_eq_testBit, bitOfNat_eq_testBit] at hbit
  exact Function.LeftInverse.injective Bool.ofNat_toNat hbit

/-- Two stores in canonical form with the same bits are equal data. -/
theorem memory_eq_of_bits {m m' : Memory} (hwf : m.wf = true) (hwf' : m'.wf = true)
    (h : ∀ j, bitOfNat (Memory.read m (j / 8)).toNat (j % 8) = bitOfNat (Memory.read m' (j / 8)).toNat (j % 8)) :
    m = m' := by
  refine Memory.ext hwf hwf' fun a => byte_eq_of_bits fun b hb => ?_
  have hbyte : (8 * a + b) / 8 = a := by omega
  have hpos : (8 * a + b) % 8 = b := by omega
  simpa only [hbyte, hpos] using h (8 * a + b)

/-- Setting bits that are set already leaves the store as it is. -/
theorem setBitsOf_eq_self {m : Memory} (hwf : m.wf = true) {idx : List Nat}
    (h : ∀ j ∈ idx, bitOfNat (Memory.read m (j / 8)).toNat (j % 8) = 1) : setBitsOf m idx = m := by
  refine memory_eq_of_bits (wf_setBitsOf hwf idx) hwf fun j => ?_
  rw [bit_setBitsOf hwf]
  split
  next hj => exact (h j hj).symm
  next => rfl

/-- The store after some bit sets depends on which indices are among them alone (42_bit_access.md R167). -/
theorem setBitsOf_congr {m : Memory} (hwf : m.wf = true) {idx idx' : List Nat} (h : ∀ j, j ∈ idx ↔ j ∈ idx') :
    setBitsOf m idx = setBitsOf m idx' := by
  refine memory_eq_of_bits (wf_setBitsOf hwf idx) (wf_setBitsOf hwf idx') fun j => ?_
  simp only [bit_setBitsOf hwf, h]

theorem setBitsOf_append (m : Memory) (idx idx' : List Nat) :
    setBitsOf m (idx ++ idx') = setBitsOf (setBitsOf m idx) idx' := List.foldl_append

/-! ### The cells of the indices (20_memory.md R43) -/

theorem indexExists_of_inv {s : State} {idx : Nat} (hs : Inv s) (hc : s.cfg = true) (h : idx < bitCount s.variant) :
    indexExists s idx := by
  obtain ⟨⟨hmss, -, -, hmax⟩, -, hconf⟩ := hs
  have ⟨_, _, _, hv, _⟩ := hconf hc
  exact indexExists_of_lt (hconf hc) hmss (by omega) h

theorem indexExists_of_mem_derive {s : State} {idx : Nat} {id : Identifier} (hs : Inv s) (hc : s.cfg = true)
    (h : idx ∈ derive s.variant id) : indexExists s idx :=
  indexExists_of_inv hs hc (lt_bitCount_of_mem_derive h)

theorem div_lt_of_mem_derive {s : State} {id : Identifier} (hs : Inv s) (hc : s.cfg = true) :
    ∀ idx ∈ derive s.variant id, idx / 8 < bufferSize s.variant :=
  fun _ h => div_lt_of_indexExists (indexExists_of_mem_derive hs hc h)

/-! ### One bit set (R163, R164) -/

theorem bitTest_eq {s : State} {m : Memory} {j : Nat} (hm : s.seg = some m) (h : indexExists s j) :
    bitTest s j = some (bitOfNat (Memory.read m (j / 8)).toNat (j % 8)) :=
  bitTest_eq_some.2 ⟨h, m, hm, rfl⟩

theorem bitTest_withSeg {s : State} {j : Nat} (m : Memory) (h : indexExists s j) :
    bitTest (s.withSeg m) j = some (bitOfNat (Memory.read m (j / 8)).toNat (j % 8)) :=
  bitTest_eq (s := s.withSeg m) rfl h

theorem withSeg_self {s : State} {m : Memory} (hm : s.seg = some m) : s.withSeg m = s := by
  rw [State.withSeg, ← hm]

/-- Settles O43: the store after `BitSet` differs from the store before in one bit at most. -/
theorem bitSetSetsOneBit : Obligations.BitSetSetsOneBit := by
  intro s idx hs hc hidx
  obtain ⟨m, hm, hwf, hbelow⟩ := seg_of_inv hs hc
  have hcell : indexExists s idx := indexExists_of_inv hs hc hidx
  have hbelow' : (setBitOf m idx).below (bufferSize s.variant) = true :=
    below_setBitsOf (idx := [idx]) hbelow (by simpa using div_lt_of_indexExists hcell)
  refine ⟨s.withSeg (setBitOf m idx), bitSet_eq_some.2 ⟨hcell, m, hm, rfl⟩,
    inv_withSeg hs hc (wf_setBitOf hwf idx) hbelow', rfl, ?_, fun j hj hne => ?_, fun hset => ?_⟩
  · rw [bitTest_withSeg _ hcell, bit_setBitOf hwf, if_pos rfl]
  · have hcell' : indexExists s j := indexExists_of_inv hs hc hj
    rw [bitTest_withSeg _ hcell', bit_setBitOf hwf, if_neg hne, bitTest_eq hm hcell']
  · rw [bitTest_eq hm hcell, Option.some.injEq] at hset
    have hsame : setBitOf m idx = m := setBitsOf_eq_self (idx := [idx]) hwf (by simpa using hset)
    rw [hsame, withSeg_self hm]

/-! ### The store after ADD, byte by byte and bit by bit (R166, R168) -/

/-- A byte after the bit sets: the masks of the indices that lie in it, ORed in. -/
theorem read_setBitsOf {m : Memory} (hwf : m.wf = true) (idx : List Nat) (a : Nat) :
    Memory.read (setBitsOf m idx) a = orMasksAt a idx (Memory.read m a) := by
  induction idx generalizing m with
  | nil => rfl
  | cons i rest ih =>
    rw [setBitsOf_cons, ih (wf_setBitOf hwf i), read_setBitOf hwf]
    by_cases hi : i / 8 = a
    · simp [orMasksAt, hi, mask]
    · simp [orMasksAt, hi, Ne.symm hi]

theorem flatByte_setBitsOf {s : State} {m : Memory} (hc : s.cfg = true) (hm : s.seg = some m) (hwf : m.wf = true)
    (idx : List Nat) (a : Nat) :
    flatByte (s.withSeg (setBitsOf m idx)) a = (flatByte s a).map (orMasksAt a idx) := by
  rw [flatByte_withSeg hc, flatByte_eq hc hm, read_setBitsOf hwf]
  split <;> rfl

theorem storeBit_setBitsOf {s : State} {m : Memory} (hc : s.cfg = true) (hm : s.seg = some m) (hwf : m.wf = true)
    {idx : List Nat} (hidx : ∀ i ∈ idx, i / 8 < bufferSize s.variant) (j : Nat) :
    storeBit (s.withSeg (setBitsOf m idx)) j = if j ∈ idx then some 1 else storeBit s j := by
  rw [storeBit_withSeg hc, storeBit_eq hc hm, bit_setBitsOf hwf]
  by_cases hj : j ∈ idx
  · rw [if_pos hj, if_pos (hidx j hj), if_pos hj]
  · rw [if_neg hj, if_neg hj]

/-- The derived indices that lie in one byte belong to the groups that have bits in it, and no two to the same group. -/
theorem length_filter_byte_le {v a : Nat} {id : Identifier} {groups : List Nat}
    (h : ∀ x, x / 8 = a → x / 2 ^ v ∈ groups) :
    ((derive v id).filter fun i => decide (i / 8 = a)).length ≤ groups.length := by
  have hnodup : (((derive v id).filter fun i => decide (i / 8 = a)).map fun x => x / 2 ^ v).Nodup := by
    refine (List.filter_sublist.map _).nodup ?_
    rw [map_div_derive]
    exact List.nodup_range
  have hsub : (((derive v id).filter fun i => decide (i / 8 = a)).map fun x => x / 2 ^ v) ⊆ groups := by
    intro g hg
    obtain ⟨x, hx, rfl⟩ := List.mem_map.1 hg
    exact h x (by simpa using (List.mem_filter.1 hx).2)
  simpa using (hnodup.subperm hsub).length_le

/-- For `v >= 3` a byte belongs to one group, at `v = 2` to two (20_memory.md R61). -/
theorem length_filter_byte_le_ite {v : Nat} (h2 : 2 ≤ v) (id : Identifier) (a : Nat) :
    ((derive v id).filter fun i => decide (i / 8 = a)).length ≤ if v = 2 then 2 else 1 := by
  split
  next hv =>
    subst hv
    refine length_filter_byte_le (groups := [2 * a, 2 * a + 1]) fun x hx => ?_
    rw [List.mem_pair]
    omega
  next hv =>
    refine length_filter_byte_le (groups := [a / 2 ^ (v - 3)]) fun x hx => ?_
    rw [two_pow_eq_eight_mul (v := v) (by omega), ← Nat.div_div_eq_div_mul, hx]
    exact List.mem_singleton_self _

/-! ### ADD in every case (R165) -/

theorem exec_add_of_error {n : Nat} {id : Identifier} {s : State} {e : UnitError}
    (h : identifierOperand n id s = .error e) : exec (.add n id) s = .next (s.answer (errorResponse e)) := by
  simp only [exec, execAdd, h, raise_eq]

/-- ADD with a filter sets the derived bits and answers success. -/
theorem exec_add_of_configured {s : State} {m : Memory} (hs : Inv s) (hc : s.cfg = true) (hm : s.seg = some m)
    (id : Identifier) :
    exec (.add 16 id) s
      = .next ((s.withSeg (setBitsOf m (derive s.variant id))).answer (okResponse noFlag [])) := by
  have hset : bitSetAll (derive s.variant id) s = some (s.withSeg (setBitsOf m (derive s.variant id))) :=
    (bitSetAll_eq_some hm).2 ⟨fun _ hi => indexExists_of_mem_derive hs hc hi, rfl⟩
  simp only [exec, execAdd, identifierOperand_eq_ok.2 ⟨hc, rfl, rfl⟩, hset, respond_eq]

/-- Settles O45: the three answers of the operand check, and the store after the bit sets. -/
theorem addSetsTheDerivedBits : Obligations.AddSetsTheDerivedBits := by
  refine fun s n id => ⟨fun hc => exec_add_of_error (identifierOperand_eq_error.2 (.inl ⟨hc, rfl⟩)),
    fun hc hn => exec_add_of_error (identifierOperand_eq_error.2 (.inr ⟨hc, hn, rfl⟩)), fun hs hc => ?_⟩
  obtain ⟨m, hm, hwf, -⟩ := seg_of_inv hs hc
  have ⟨_, _, hconf⟩ := hs
  obtain ⟨-, -, h2, -⟩ := hconf hc
  exact ⟨_, exec_add_of_configured hs hc hm id, rfl, flatByte_setBitsOf hc hm hwf (derive s.variant id),
    length_filter_byte_le_ite h2 id⟩

/-! ### HAS in every case (R169, R170) -/

theorem exec_has_of_error {n : Nat} {id : Identifier} {s : State} {e : UnitError}
    (h : identifierOperand n id s = .error e) : exec (.has n id) s = .next (s.answer (errorResponse e)) := by
  simp only [exec, execHas, h, raise_eq]

theorem bitOfNat_ne_zero_iff {x j : Nat} : bitOfNat x j ≠ 0 ↔ bitOfNat x j = 1 := by
  unfold bitOfNat; omega

/-- The short circuit changes nothing: the flag is the AND of all the bit tests. -/
theorem allBitsSet_derive {s : State} (hs : Inv s) (hc : s.cfg = true) (id : Identifier) :
    allBitsSet s (derive s.variant id)
      = some (decide (∀ idx ∈ derive s.variant id, storeBit s idx = some 1)) := by
  obtain ⟨m, hm, -⟩ := seg_of_inv hs hc
  have hbit : ∀ idx ∈ derive s.variant id,
      bitOfNat (Memory.read m (idx / 8)).toNat (idx % 8) ≠ 0 ↔ storeBit s idx = some 1 := by
    intro idx hidx
    rw [storeBit_eq hc hm, if_pos (div_lt_of_mem_derive hs hc idx hidx), Option.some.injEq, bitOfNat_ne_zero_iff]
  rw [allBitsSet_of_exists hm fun _ hi => indexExists_of_mem_derive hs hc hi, List.all_eq]
  simp only [decide_eq_true_eq, forall₂_congr hbit]

theorem exec_has_of_configured {s : State} (hs : Inv s) (hc : s.cfg = true) (id : Identifier) :
    exec (.has 16 id) s
      = .next (answered s 0#4 (decide (∀ idx ∈ derive s.variant id, storeBit s idx = some 1)) []) :=
  exec_has_of_allBitsSet hc (allBitsSet_derive hs hc id)

/-- Settles O47: the three answers of the operand check, and the flag of an empty store. -/
theorem hasTestsTheDerivedBits : Obligations.HasTestsTheDerivedBits := by
  refine fun s n id => ⟨fun hc => exec_has_of_error (identifierOperand_eq_error.2 (.inl ⟨hc, rfl⟩)),
    fun hc hn => exec_has_of_error (identifierOperand_eq_error.2 (.inr ⟨hc, hn, rfl⟩)),
    fun hs hc => exec_has_of_configured hs hc id, fun hs v hempty => ?_⟩
  obtain ⟨⟨hmss, -, -, hmax⟩, -, -⟩ := hs
  have ⟨⟨hc, hvar, _, hv, _⟩, _⟩ := hempty
  apply exec_has_of_allBitsSet hc
  rw [hvar]
  exact allBitsSet_derive_of_empty hempty hmss (by omega) id

/-! ### ADD twice (R167) -/

/-- The store after two ADDs: the bit sets of both, over the store before. -/
theorem seg_of_add_add {s t u : State} {m : Memory} {x y : Identifier} (hs : Inv s) (hc : s.cfg = true)
    (hm : s.seg = some m) (hx : exec (.add 16 x) s = .next t) (hy : exec (.add 16 y) t = .next u) :
    u.seg = some (setBitsOf m (derive s.variant x ++ derive s.variant y)) := by
  have ht : Inv t := inv_exec hs hx
  rw [exec_add_of_configured hs hc hm, Host.Outcome.next.injEq] at hx
  subst hx
  rw [exec_add_of_configured ht hc rfl, Host.Outcome.next.injEq] at hy
  subst hy
  rw [setBitsOf_append]
  rfl

/-- Settles O49: the store depends on the set of the indices alone, which has neither order nor repetition. -/
theorem addIsIdempotentAndCommutes : Obligations.AddIsIdempotentAndCommutes := by
  intro s x y hs hc
  obtain ⟨m, hm, hwf, -⟩ := seg_of_inv hs hc
  refine ⟨fun t u hx hx' => ?_, fun t u t' u' hx hy hy' hx' => ?_⟩
  · rw [seg_of_add_add hs hc hm hx hx', setBitsOf_congr hwf (idx' := derive s.variant x) (by simp)]
    rw [exec_add_of_configured hs hc hm, Host.Outcome.next.injEq] at hx
    subst hx
    rfl
  · rw [seg_of_add_add hs hc hm hx hy, seg_of_add_add hs hc hm hy' hx',
      setBitsOf_congr hwf fun _ => List.mem_append.trans (or_comm.trans List.mem_append.symm)]

/-! ### Runs -/

theorem run_succ {s t : State} (h : step s = .next t) (n : Nat) :
    Host.Core.run core (n + 1) s = Host.Core.run core n t := by
  have hcore : core.step s = .next t := h
  simp only [Host.Core.run, hcore]

/-- A step that takes an issued command runs it. -/
theorem step_issue {s : State} {i : Instr} {rest : List HostInput} (hi : i.wf = true)
    (hin : s.inputs = issue i :: rest) : step s = exec i (s.withInputs rest) := by
  rw [step_command hin, runCommand_of_legal (decodeOfEncodeIsTheCommand i hi)]

theorem step_issue_add {s : State} {m : Memory} {x : Identifier} {rest : List HostInput} (hs : Inv s)
    (hc : s.cfg = true) (hm : s.seg = some m) (hin : s.inputs = issue (.add 16 x) :: rest) :
    step s = .next (((s.withInputs rest).withSeg (setBitsOf m (derive s.variant x))).answer (okResponse noFlag [])) :=
  (step_issue rfl hin).trans (exec_add_of_configured (inv_withInputs hs rest) hc hm x)

/-! ### A sequence of ADDs (R167) -/

theorem flatByte_congr {s t : State} (h : SameUnit s t) (a : Nat) : flatByte t a = flatByte s a := by
  obtain ⟨hc, hv, hm⟩ := h
  unfold flatByte State.variant
  rw [hc, hv, hm]

theorem storeBit_congr {s t : State} (h : SameUnit s t) (j : Nat) : storeBit t j = storeBit s j := by
  rw [storeBit, storeBit, flatByte_congr h]

/-- After ADDs of a list of identifiers the unit is as it was but for the bits of all their indices. -/
theorem run_adds {s : State} {m : Memory} {ids : List Identifier} (hs : Inv s) (hc : s.cfg = true)
    (hm : s.seg = some m) (hin : s.inputs = ids.map fun x => issue (.add 16 x)) :
    ∃ t, Host.Core.run core ids.length s = .next t
      ∧ SameUnit (s.withSeg (setBitsOf m (ids.flatMap (derive s.variant)))) t := by
  induction ids generalizing s m with
  | nil => exact ⟨s, rfl, rfl, rfl, hm⟩
  | cons x rest ih =>
    have hstep := step_issue_add hs hc hm hin
    obtain ⟨t, hrun, hunit⟩ := ih (inv_step hs hstep) hc rfl rfl
    refine ⟨t, (run_succ hstep rest.length).trans hrun, ?_⟩
    rw [List.flatMap_cons, setBitsOf_append]
    exact hunit

/-- Settles O50: the masks that a byte receives are those of the indices of all the identifiers. -/
theorem addSequenceIsTheOrOfItsMasks : Obligations.AddSequenceIsTheOrOfItsMasks := by
  intro s ids hs hc hin
  obtain ⟨m, hm, hwf, -⟩ := seg_of_inv hs hc
  obtain ⟨t, hrun, hunit⟩ := run_adds hs hc hm hin
  have ⟨htc, htv, _⟩ := hunit
  refine ⟨t, hrun, htc.trans hc, htv, fun a => ?_, fun j => ?_⟩
  · rw [flatByte_congr hunit, flatByte_setBitsOf hc hm hwf]
    rfl
  · have hstore : ∀ i ∈ ids.flatMap (derive s.variant), i / 8 < bufferSize s.variant := by
      intro i hi
      obtain ⟨x, -, hx⟩ := List.mem_flatMap.1 hi
      exact div_lt_of_mem_derive hs hc i hx
    have hadded : j ∈ ids.flatMap (derive s.variant) ↔ ∃ x ∈ ids, j ∈ derive s.v.toNat x := List.mem_flatMap
    rw [storeBit_congr hunit, storeBit_setBitsOf hc hm hwf hstore, ← hadded]
    by_cases hj : j ∈ ids.flatMap (derive s.variant) <;> simp [hj]

/-! ### What keeps the filter keeps its bits (R171, R175) -/

/-- `t` has the filter of `s`, and every bit that is 1 in `s`. -/
structure FilterKept (s t : State) : Prop where
  config : t.config = s.config
  cfg : t.cfg = s.cfg
  v : t.v = s.v
  bits : ∀ idx, storeBit s idx = some 1 → storeBit t idx = some 1

theorem FilterKept.refl (s : State) : FilterKept s s := ⟨rfl, rfl, rfl, fun _ => id⟩

theorem FilterKept.trans {s t u : State} (h : FilterKept s t) (h' : FilterKept t u) : FilterKept s u :=
  ⟨h'.config.trans h.config, h'.cfg.trans h.cfg, h'.v.trans h.v, fun idx hidx => h'.bits idx (h.bits idx hidx)⟩

theorem filterKept_answer (s : State) (r : Response) : FilterKept s (s.answer r) := ⟨rfl, rfl, rfl, fun _ => id⟩

theorem filterKept_bitSetAll {s t : State} {idx : List Nat} (hs : Inv s) (hc : s.cfg = true)
    (h : bitSetAll idx s = some t) : FilterKept s t := by
  obtain ⟨m, hm, hwf, -, hall, rfl⟩ := bitSetAll_cases hs hc h
  refine ⟨rfl, rfl, rfl, fun j hj => ?_⟩
  rw [storeBit_setBitsOf hc hm hwf hall, hj, ite_self]

/-- A command that is no INIT, or an INIT whose variant is not supported, keeps the filter. -/
theorem filterKept_exec {i : Instr} {s t : State} (hs : Inv s)
    (hinit : ∀ var, i = .init var → var < 2 ∨ (s.config.vMax : Int) < var) (h : exec i s = .next t) :
    FilterKept s t := by
  rcases exec_cases h with ⟨e, rfl⟩ | ⟨s', flag, data, heff, rfl⟩
  · exact filterKept_answer s (errorResponse e)
  · refine FilterKept.trans ?_ (filterKept_answer s' (okResponse flag data))
    cases i with
    | init var =>
      obtain ⟨h2, hv, -⟩ := heff
      have hunsupported := hinit var rfl
      omega
    | add n id =>
      obtain ⟨hc, -, hset⟩ := heff
      exact filterKept_bitSetAll hs hc hset
    | _ => exact successEffect_other heff (by simp) (by simp) ▸ FilterKept.refl s

theorem filterKept_step {s t : State} (hs : Inv s)
    (hkeep : ∀ input ∈ s.inputs.head?, keepsFilter s.config input = true) (h : step s = .next t) :
    FilterKept s t := by
  rcases step_cases h with ⟨-, rfl⟩ | ⟨rest, hin, -⟩ | ⟨cw, rest, hin, hrun⟩
  · exact FilterKept.refl t
  · simp [hin, keepsFilter] at hkeep
  · have hkept : FilterKept (s.withInputs rest) t := by
      rcases runCommand_cases hrun with ⟨-, -, rfl⟩ | ⟨i, hi, hexec⟩
      · exact filterKept_answer (s.withInputs rest) (errorResponse .illegalCommand)
      · refine filterKept_exec (inv_withInputs hs rest) (fun var hvar => ?_) hexec
        simpa [hin, keepsFilter, hi, hvar] using hkeep
    exact ⟨hkept.config, hkept.cfg, hkept.v, hkept.bits⟩

/-- Settles O51: a step that keeps the filter keeps its bits. -/
theorem setBitsStaySet : Obligations.SetBitsStaySet :=
  fun _ _ idx hs hkeep h => (filterKept_step hs hkeep h).bits idx

/-! ### No false negatives (R171) -/

/-- Every command completes on a state that meets the invariants (70_reset_and_hazards.md R254). -/
theorem exists_exec_eq_next {s : State} (hs : Inv s) (i : Instr) : ∃ t, exec i s = .next t := by
  cases i with
  | init var =>
    simp only [exec, execInit]
    cases variantOperand s.config var <;> exact ⟨_, rfl⟩
  | desc var =>
    simp only [exec, execDesc]
    cases variantOperand s.config var <;> exact ⟨_, rfl⟩
  | add n id =>
    cases hop : identifierOperand n id s with
    | error e => exact ⟨_, exec_add_of_error hop⟩
    | ok idx =>
      obtain ⟨hc, rfl, -⟩ := identifierOperand_eq_ok.1 hop
      obtain ⟨m, hm, -⟩ := seg_of_inv hs hc
      exact ⟨_, exec_add_of_configured hs hc hm id⟩
  | has n id =>
    cases hop : identifierOperand n id s with
    | error e => exact ⟨_, exec_has_of_error hop⟩
    | ok idx =>
      obtain ⟨hc, rfl, -⟩ := identifierOperand_eq_ok.1 hop
      exact ⟨_, exec_has_of_configured hs hc id⟩
  | derive n id =>
    simp only [exec, execDerive]
    cases identifierOperand n id s <;> exact ⟨_, rfl⟩
  | rdcsr n =>
    simp only [exec, execRdcsr]
    cases csrOperand n <;> exact ⟨_, rfl⟩
  | rdlen g =>
    simp only [exec, execRdlen]
    cases segmentOperand g s <;> exact ⟨_, rfl⟩
  | rdbyte g o =>
    cases hop : cellOperand g o s with
    | error e => 
      simp only [exec, execRdbyte, hop]
      exact ⟨_, rfl⟩
    | ok u =>
      have hcell := cellOperand_eq_ok.1 hop
      obtain ⟨m, hm, -⟩ := seg_of_inv hs (cellExists_iff.1 hcell).1
      exact ⟨_, exec_rdbyte_of_memRead (memRead_eq_some.2 ⟨hcell, m, hm, rfl⟩)⟩

theorem exists_runInput_eq_next {s : State} (hs : Inv s) (input : HostInput) : ∃ t, runInput input s = .next t := by
  cases input with
  | rst => exact ⟨_, rfl⟩
  | command cw =>
    cases hdec : decode cw with
    | illegal why => exact ⟨_, runCommand_of_not_legal (by simp [hdec]) s⟩
    | legal i =>
      obtain ⟨t, ht⟩ := exists_exec_eq_next hs i
      exact ⟨t, (runCommand_of_legal hdec s).trans ht⟩

theorem runInput_inputs {s t : State} {input : HostInput} (hs : Inv s) (h : runInput input s = .next t) :
    t.inputs = s.inputs := by
  cases input with
  | rst =>
    obtain rfl : resetUnit s = t := by simpa [runInput] using h
    rfl
  | command cw => exact (runCommand_answersOnce hs h).1

/-- A step takes the oldest input and completes. -/
theorem exists_step_eq_next {s : State} {input : HostInput} {rest : List HostInput} (hs : Inv s)
    (hin : s.inputs = input :: rest) : ∃ t, step s = .next t ∧ t.inputs = rest := by
  obtain ⟨t, ht⟩ := exists_runInput_eq_next (inv_withInputs hs rest) input
  refine ⟨t, ?_, runInput_inputs (inv_withInputs hs rest) ht⟩
  simp only [step, hin, ht]

/-- Inputs that keep the filter are all taken, and what is left to run is run with their bits in place. -/
theorem run_filterKept {s : State} {between rest : List HostInput} (hs : Inv s) (hin : s.inputs = between ++ rest)
    (hkeep : ∀ input ∈ between, keepsFilter s.config input = true) :
    ∃ t, Inv t ∧ FilterKept s t ∧ t.inputs = rest
      ∧ ∀ n, Host.Core.run core (between.length + n) s = Host.Core.run core n t := by
  induction between generalizing s with
  | nil => exact ⟨s, hs, FilterKept.refl s, hin, fun n => by rw [List.length_nil, Nat.zero_add]⟩
  | cons input between ih =>
    obtain ⟨hfirst, hothers⟩ := List.forall_mem_cons.1 hkeep
    obtain ⟨u, hstep, huin⟩ := exists_step_eq_next hs hin
    have hu : FilterKept s u := filterKept_step hs (by simpa [hin] using hfirst) hstep
    obtain ⟨t, ht, hkept, htin, hrun⟩ := ih (inv_step hs hstep) huin (by simpa only [hu.config] using hothers)
    refine ⟨t, ht, hu.trans hkept, htin, fun n => ?_⟩
    rw [List.length_cons, Nat.add_right_comm, run_succ hstep, hrun]

/-- After an ADD every derived bit is 1. -/
theorem storeBit_of_exec_add {s t : State} {x : Identifier} (hs : Inv s) (hc : s.cfg = true)
    (h : exec (.add 16 x) s = .next t) : ∀ idx ∈ derive s.variant x, storeBit t idx = some 1 := by
  intro idx hidx
  obtain ⟨m, hm, hwf, -⟩ := seg_of_inv hs hc
  rw [exec_add_of_configured hs hc hm, Host.Outcome.next.injEq] at h
  subst h
  rw [storeBit_answer, storeBit_setBitsOf hc hm hwf (div_lt_of_mem_derive hs hc), if_pos hidx]

/-- HAS answers true when every derived bit is 1. -/
theorem exec_has_of_forall_storeBit {s : State} {x : Identifier} (hs : Inv s) (hc : s.cfg = true)
    (h : ∀ idx ∈ derive s.variant x, storeBit s idx = some 1) :
    exec (.has 16 x) s = .next (answered s 0#4 true []) := by
  rw [exec_has_of_configured hs hc, decide_eq_true h]

/-- Settles O48: the ADD sets every derived bit, the inputs between keep them, and HAS finds them. -/
theorem noFalseNegatives : Obligations.NoFalseNegatives := by
  intro s x between hs hc hin hkeep
  have hs' := inv_withInputs hs (between ++ [issue (.has 16 x)])
  obtain ⟨u, hadd⟩ := exists_exec_eq_next hs' (.add 16 x)
  have hstep : step s = .next u := (step_issue rfl hin).trans hadd
  have hu := filterKept_exec hs' (by simp) hadd
  have hkeep' : ∀ input ∈ between, keepsFilter u.config input = true := by
    simpa only [hu.config, State.withInputs_config] using hkeep
  obtain ⟨t, ht, hkept, htin, hrun⟩ := run_filterKept (inv_step hs hstep) (execAdd_inputs hadd) hkeep'
  have htc : t.cfg = true := hkept.cfg.trans (hu.cfg.trans hc)
  have htv : t.variant = s.variant := congrArg BitVec.toNat (hkept.v.trans hu.v)
  have hhas : step t = .next (answered (t.withInputs []) 0#4 true []) := by
    rw [step_issue rfl htin]
    refine exec_has_of_forall_storeBit (inv_withInputs ht []) htc fun idx hidx => ?_
    rw [State.withInputs_variant, htv] at hidx
    exact hkept.bits idx (storeBit_of_exec_add hs' hc hadd idx hidx)
  refine ⟨answered (t.withInputs []) 0#4 true [], ?_, List.getLast?_concat⟩
  rw [run_succ hstep, hrun, run_succ hhas]
  rfl

/-! ### The segment size is invisible to ADD and HAS (R162) -/

/-- The same unit built with another `MAX_SEGMENT_SIZE`. -/
def State.withMss (s : State) (mss : Nat) : State := { s with config := { s.config with maxSegmentSize := mss } }

theorem inv_withMss {s : State} (hs : Inv s) {mss : Nat} (h1 : 1 ≤ mss) (h64 : mss < 2 ^ 64) :
    Inv (s.withMss mss) := by
  obtain ⟨⟨-, -, h2, hmax⟩, hreset, hconf⟩ := hs
  exact ⟨⟨h1, h64, h2, hmax⟩, hreset, hconf⟩

theorem exec_add_withMss {s t : State} {mss n : Nat} {id : Identifier} (hs : Inv s) (hs' : Inv (s.withMss mss))
    (h : exec (.add n id) s = .next t) : exec (.add n id) (s.withMss mss) = .next (t.withMss mss) := by
  cases hop : identifierOperand n id s with
  | error e =>
    rw [exec_add_of_error hop, Host.Outcome.next.injEq] at h
    subst h
    exact exec_add_of_error (s := s.withMss mss) hop
  | ok idx =>
    obtain ⟨hc, rfl, -⟩ := identifierOperand_eq_ok.1 hop
    obtain ⟨m, hm, -⟩ := seg_of_inv hs hc
    rw [exec_add_of_configured hs hc hm, Host.Outcome.next.injEq] at h
    subst h
    exact exec_add_of_configured hs' hc hm id

theorem exec_has_withMss {s t : State} {mss n : Nat} {id : Identifier} (hs : Inv s) (hs' : Inv (s.withMss mss))
    (h : exec (.has n id) s = .next t) : exec (.has n id) (s.withMss mss) = .next (t.withMss mss) := by
  cases hop : identifierOperand n id s with
  | error e =>
    rw [exec_has_of_error hop, Host.Outcome.next.injEq] at h
    subst h
    exact exec_has_of_error (s := s.withMss mss) hop
  | ok idx =>
    obtain ⟨hc, rfl, -⟩ := identifierOperand_eq_ok.1 hop
    rw [exec_has_of_configured hs hc, Host.Outcome.next.injEq] at h
    subst h
    exact exec_has_of_configured hs' hc id

/-- Settles O52: the derived indices name bits of the flat store, whatever the segments. -/
theorem segmentSizeIsInvisibleToAddAndHas : Obligations.SegmentSizeIsInvisibleToAddAndHas := by
  rintro s t mss i hs h1 h64 ⟨n, id, rfl | rfl⟩ h
  · exact exec_add_withMss hs (inv_withMss hs h1 h64) h
  · exact exec_has_withMss hs (inv_withMss hs h1 h64) h

end Sys2Proof.Machine

namespace Sys2Proof.Machine

open Sys2Proof.Safety

/-! ### RDCSR in every case (10_state.md R29, 43_diagnostic.md R191) -/

theorem whenConfigured_of_configured {s : State} (hc : s.cfg = true) (x : Nat) : whenConfigured s x = x := by
  rw [whenConfigured, if_pos hc]

theorem csrOperand_of_seven_lt {n : Nat} (h : 7 < n) : csrOperand n = .error .outOfRange := by
  obtain ⟨k, rfl⟩ : ∃ k, n = k + 8 := Nat.exists_eq_add_of_le' h
  rfl

theorem exec_rdcsr_of_error {n : Nat} {s : State} {e : UnitError} (h : csrOperand n = .error e) :
    exec (.rdcsr n) s = .next (s.answer (errorResponse e)) := by
  simp only [exec, execRdcsr, h, raise_eq]

/-- A format C word with a reserved bit set decodes to no command (30_encoding.md R83). -/
theorem formatC_reserved_not_legal {cw : CommandWord} (hop : opOf cw = 0x06#8)
    (hreserved : auxOf cw ≠ 0#8 ∨ cwField cw 8 120 ≠ 0#120) (i : Instr) : decode cw ≠ .legal i := by
  have hformat : decode cw = decodeC .rdcsr cw := by simp [decode, hop]
  rw [hformat, Ne, decodeC_eq_legal]
  rintro ⟨haux, hzero, -⟩
  exact hreserved.elim (· haux) (· hzero)

/-- Settles O53: the number names its CSR up to 7 and none above, and a reserved bit makes the word illegal. -/
theorem rdcsrReadsTheRegisterMap : Obligations.RdcsrReadsTheRegisterMap :=
  fun s => ⟨exec_rdcsr_of_csr (c := .status) rfl s, exec_rdcsr_of_csr (c := .variant) rfl s,
    exec_rdcsr_of_csr (c := .k) rfl s, exec_rdcsr_of_csr (c := .m) rfl s, exec_rdcsr_of_csr (c := .bufsz) rfl s,
    exec_rdcsr_of_csr (c := .nseg) rfl s, exec_rdcsr_of_csr (c := .maxseg) rfl s,
    exec_rdcsr_of_csr (c := .vmax) rfl s, fun _ hn => exec_rdcsr_of_error (csrOperand_of_seven_lt hn),
    fun _ hop hreserved => runCommand_of_not_legal (formatC_reserved_not_legal hop hreserved) s⟩

/-! ### RDLEN in every case (43_diagnostic.md R192) -/

theorem exec_rdlen_of_error {g : Nat} {s : State} {e : UnitError} (h : segmentOperand g s = .error e) :
    exec (.rdlen g) s = .next (s.answer (errorResponse e)) := by
  simp only [exec, execRdlen, h, raise_eq]

theorem exec_rdlen_of_lt_segCount {g : Nat} {s : State} (hc : s.cfg = true) (hg : g < segCount s.mss s.variant) :
    exec (.rdlen g) s = .next (answered s 0#4 false [zext128 (segLen s.mss s.variant g)]) := by
  simp only [exec, execRdlen, segmentOperand_eq_ok.2 ⟨hc, hg, rfl⟩, respond_eq]
  rfl

/-- The segments of a filter fill its buffer (40_configuration.md R110). -/
theorem sum_segLen_of_inv {s : State} (hs : Inv s) (hc : s.cfg = true) :
    ((List.range (segCount s.mss s.variant)).map (segLen s.mss s.variant)).sum = bufferSize s.variant := by
  obtain ⟨⟨hmss, -⟩, -, hconf⟩ := hs
  obtain ⟨-, -, h2, -⟩ := hconf hc
  obtain ⟨-, hsum, -⟩ := segmentLengthsSumToBufferSize s.mss s.variant hmss h2
  exact hsum

/-- Settles O54: the answers of the segment check, and the sum of the segment lengths. -/
theorem rdlenReadsASegmentLength : Obligations.RdlenReadsASegmentLength := by
  refine fun s g => ⟨fun hc => exec_rdlen_of_error (segmentOperand_eq_error.2 (.inl ⟨hc, rfl⟩)),
    fun hc hg => exec_rdlen_of_error (segmentOperand_eq_error.2 (.inr ⟨hc, hg, rfl⟩)),
    fun hc hg => exec_rdlen_of_lt_segCount hc hg, fun hs hc => ?_⟩
  rw [readCsr, whenConfigured_of_configured hc]
  exact sum_segLen_of_inv hs hc

/-! ### RDBYTE in every case (43_diagnostic.md R193) -/

theorem exec_rdbyte_of_error {g o : Nat} {s : State} {e : UnitError} (h : cellOperand g o s = .error e) :
    exec (.rdbyte g o) s = .next (s.answer (errorResponse e)) := by
  simp only [exec, execRdbyte, h, raise_eq]

theorem exists_memRead_of_cellExists {s : State} {g o : Nat} (hs : Inv s) (hcell : cellExists s g o = true) :
    ∃ x, memRead s g o = some x := by
  obtain ⟨hc, -⟩ := cellExists_iff.1 hcell
  obtain ⟨m, hm, -⟩ := seg_of_inv hs hc
  exact ⟨_, memRead_eq_some.2 ⟨hcell, m, hm, rfl⟩⟩

/-- A cell holds the byte of the flat view at its flat address (10_state.md R25). -/
theorem flatByte_of_memRead {s : State} {g o : Nat} {x : Byte} (h : memRead s g o = some x) :
    flatByte s (flatAddress s.mss g o) = some x := by
  obtain ⟨hcell, m, hm, rfl⟩ := memRead_eq_some.1 h
  obtain ⟨hc, -⟩ := cellExists_iff.1 hcell
  rw [flatByte_eq hc hm, if_pos (flatAddress_lt_of_cellExists hcell)]

/-- Flat byte `a` holds bit indices `8 * a` to `8 * a + 7`. -/
theorem storeBit_of_flatByte {s : State} {a b : Nat} {x : Byte} (h : flatByte s a = some x) (hb : b < 8) :
    storeBit s (8 * a + b) = some (bitOfNat x.toNat b) := by
  have hbyte : (8 * a + b) / 8 = a := by omega
  have hbit : (8 * a + b) % 8 = b := by omega
  rw [storeBit, hbyte, hbit, h, Option.map_some]

/-- Settles O55: the answers of the cell check, and the byte of a cell in the flat view. -/
theorem rdbyteReadsAByte : Obligations.RdbyteReadsAByte := by
  refine fun s g o => ⟨fun hc => exec_rdbyte_of_error (cellOperand_eq_error.2 (.inl ⟨hc, rfl⟩)),
    fun hc hg => exec_rdbyte_of_error (cellOperand_eq_error.2 (.inr ⟨hc, .inl hg, rfl⟩)),
    fun hc _ ho => exec_rdbyte_of_error (cellOperand_eq_error.2 (.inr ⟨hc, .inr ho, rfl⟩)),
    fun hs hc hg ho => ?_⟩
  have hcell : cellExists s g o = true := cellExists_iff.2 ⟨hc, hg, ho⟩
  obtain ⟨x, hx⟩ := exists_memRead_of_cellExists hs hcell
  have hflat := flatByte_of_memRead hx
  refine ⟨x, hflat, exec_rdbyte_of_memRead hx, fun b hb => storeBit_of_flatByte hflat hb, fun hempty => ?_⟩
  exact Option.some.inj (hx.symm.trans (memRead_of_empty hempty hcell))

/-! ### The store as the host reads it (43_diagnostic.md R194) -/

/-- The bytes of segment `g` of the store `m`, in order: one array of `SEG` (10_state.md R23). -/
def segmentBytes (s : State) (m : Memory) (g : Nat) : List Byte :=
  (List.range (segLen s.mss s.variant g)).map fun o => Memory.read m (flatAddress s.mss g o)

@[simp] theorem length_segmentBytes (s : State) (m : Memory) (g : Nat) :
    (segmentBytes s m g).length = segLen s.mss s.variant g := by
  simp [segmentBytes]

theorem segmentBytes_getElem?_eq_some {s : State} {m : Memory} {g o : Nat} {x : Byte} :
    (segmentBytes s m g)[o]? = some x ↔
      o < segLen s.mss s.variant g ∧ Memory.read m (flatAddress s.mss g o) = x := by
  simp [segmentBytes, List.getElem?_eq_some_iff]

theorem segView_eq {s : State} {m : Memory} (hc : s.cfg = true) (hm : s.seg = some m) :
    segView s = some ((List.range (segCount s.mss s.variant)).map (segmentBytes s m)) := by
  rw [segView, if_pos hc, hm]
  rfl

/-- Settles O56: a segment of the view is `segmentBytes`, whose entries are the cells that RDBYTE reads. -/
theorem diagnosticViewIsTheStore : Obligations.DiagnosticViewIsTheStore := by
  intro s hs hc
  obtain ⟨m, hm, -⟩ := seg_of_inv hs hc
  refine ⟨_, segView_eq hc hm, ?_, ?_, fun g seg hseg => ?_⟩
  · rw [List.length_map, List.length_range, exec_rdcsr_of_csr (c := .nseg) rfl, readCsr,
      whenConfigured_of_configured hc, zext128]
  · have hlen : List.length ∘ segmentBytes s m = segLen s.mss s.variant := funext (length_segmentBytes s m)
    rw [List.map_map, hlen]
    exact sum_segLen_of_inv hs hc
  · obtain ⟨hg, rfl⟩ : g < segCount s.mss s.variant ∧ segmentBytes s m g = seg := by
      simpa [List.getElem?_eq_some_iff] using hseg
    rw [length_segmentBytes]
    refine ⟨exec_rdlen_of_lt_segCount hc hg, fun o x hx => ?_⟩
    obtain ⟨ho, hread⟩ := segmentBytes_getElem?_eq_some.1 hx
    exact exec_rdbyte_of_memRead (memRead_eq_some.2 ⟨cellExists_iff.2 ⟨hc, hg, ho⟩, m, hm, hread.symm⟩)

end Sys2Proof.Machine

namespace Sys2Proof.Machine

open Sys2Proof.Safety

/-! ### The reserved words (30_encoding.md R82, R83; 60_exceptions.md R213) -/

/-- A word with a reserved opcode, or with a must-be-zero field of its opcode's format that is not zero. -/
def IsReserved (cw : CommandWord) : Prop :=
  opOf cw = 0x00#8 ∨ 9 ≤ (opOf cw).toNat
  ∨ ((opOf cw = 0x01#8 ∨ opOf cw = 0x02#8) ∧ (auxOf cw ≠ 0#8 ∨ cwField cw 32 96 ≠ 0#96))
  ∨ (opOf cw = 0x06#8 ∧ (auxOf cw ≠ 0#8 ∨ cwField cw 8 120 ≠ 0#120))
  ∨ (opOf cw = 0x07#8 ∧ (auxOf cw ≠ 0#8 ∨ cwField cw 0 64 ≠ 0#64))
  ∨ (opOf cw = 0x08#8 ∧ auxOf cw ≠ 0#8)

theorem not_isReserved_of_holdsCommand {cw : CommandWord} {i : Instr} (h : HoldsCommand cw i) : ¬IsReserved cw := by
  cases i with
  | init var | desc var | rdcsr csrn | rdlen segi =>
    obtain ⟨hop, haux, hzero, -⟩ := h
    simp [IsReserved, hop, haux, hzero]
  | add idLen id | has idLen id | derive idLen id =>
    obtain ⟨hop, -⟩ := h
    simp [IsReserved, hop]
  | rdbyte segi off =>
    obtain ⟨hop, haux, -⟩ := h
    simp [IsReserved, hop, haux]

/-- The opcodes that are not reserved are those of the eight commands (R80, R82). -/
theorem opcode_cases {op : Byte} (h0 : op ≠ 0x00#8) (h9 : op.toNat < 9) :
    op = 0x01#8 ∨ op = 0x02#8 ∨ op = 0x03#8 ∨ op = 0x04#8 ∨ op = 0x05#8 ∨ op = 0x06#8 ∨ op = 0x07#8
      ∨ op = 0x08#8 := by
  bv_omega

/-- The word of a command's opcode with its must-be-zero fields zero holds that command, its operands read from the
fields as they stand (R79). -/
theorem exists_holdsCommand_of_not_isReserved {cw : CommandWord} (h : ¬IsReserved cw) : ∃ i, HoldsCommand cw i := by
  have h0 : opOf cw ≠ 0x00#8 := fun hop => h (.inl hop)
  have h9 : (opOf cw).toNat < 9 := Nat.lt_of_not_le fun hop => h (.inr (.inl hop))
  rcases opcode_cases h0 h9 with hop | hop | hop | hop | hop | hop | hop | hop
  · obtain ⟨haux, hzero⟩ : auxOf cw = 0#8 ∧ cwField cw 32 96 = 0#96 := by simpa [IsReserved, hop] using h
    exact ⟨.init _, hop, haux, hzero, rfl⟩
  · obtain ⟨haux, hzero⟩ : auxOf cw = 0#8 ∧ cwField cw 32 96 = 0#96 := by simpa [IsReserved, hop] using h
    exact ⟨.desc _, hop, haux, hzero, rfl⟩
  · exact ⟨.add _ _, hop, rfl, rfl⟩
  · exact ⟨.has _ _, hop, rfl, rfl⟩
  · exact ⟨.derive _ _, hop, rfl, rfl⟩
  · obtain ⟨haux, hzero⟩ : auxOf cw = 0#8 ∧ cwField cw 8 120 = 0#120 := by simpa [IsReserved, hop] using h
    exact ⟨.rdcsr _, hop, haux, hzero, rfl⟩
  · obtain ⟨haux, hzero⟩ : auxOf cw = 0#8 ∧ cwField cw 0 64 = 0#64 := by simpa [IsReserved, hop] using h
    exact ⟨.rdlen _, hop, haux, hzero, rfl⟩
  · have haux : auxOf cw = 0#8 := by simpa [IsReserved, hop] using h
    exact ⟨.rdbyte _ _, hop, haux, rfl, rfl⟩

/-- Settles O4: a reserved word holds no command, and every other word holds the command of its opcode. -/
theorem illegalWordsAreTheReservedOnes : Obligations.IllegalWordsAreTheReservedOnes := by
  refine fun cw s rest => ⟨fun (hreserved : IsReserved cw) => ?_, fun (hfree : ¬IsReserved cw) => ?_⟩
  · have hillegal : ∀ i, decode cw ≠ .legal i := fun i hlegal =>
      not_isReserved_of_holdsCommand (decode_eq_legal_iff.1 hlegal) hreserved
    rw [step_command rfl]
    exact runCommand_of_not_legal hillegal _
  · obtain ⟨i, hholds⟩ := exists_holdsCommand_of_not_isReserved hfree
    exact ⟨i, decode_eq_legal_iff.2 hholds⟩

/-! ### Repeating a failed command (60_exceptions.md R221) -/

/-- Settles O21: the failed command changed the log alone, and no command reads the log. -/
theorem repeatedFailedCommandFailsTheSameWay : Obligations.RepeatedFailedCommandFailsTheSameWay := by
  intro i s t r h hlog hstatus
  obtain ⟨-, -, ht⟩ := failedCommandChangesNothing i s t r h hlog hstatus
  obtain ⟨r', hlog', -, hrepeat⟩ := commandsReadOnlyTheUnit i s t t.responses s.inputs h
  obtain rfl : answered s r.status false [] = t := ht.symm
  obtain rfl : { status := r.status, flag := false, data := [] } = r' := by simpa using hlog'
  exact hrepeat

/-! ### Which commands need a filter (60_exceptions.md R214) -/

theorem variantOperand_error_ne_notConfigured {c : Config} {var : Int} {e : UnitError}
    (h : variantOperand c var = .error e) : e ≠ .notConfigured := by
  rcases variantOperand_eq_error.1 h with ⟨-, rfl⟩ | ⟨-, -, rfl⟩ <;> simp

theorem csrOperand_error_ne_notConfigured {n : Nat} {e : UnitError} (h : csrOperand n = .error e) :
    e ≠ .notConfigured := by
  rintro rfl
  unfold csrOperand at h
  split at h <;> cases h

/-- From `s` to `t` one response is given, and its code is not that of `NotConfigured`. -/
def AnswersNoNotConfigured (s t : State) : Prop :=
  ∃ r : Response, t.responses = s.responses ++ [r] ∧ r.status ≠ 4#4

theorem answersNoNotConfigured_error {s : State} {e : UnitError} (h : e ≠ .notConfigured) :
    AnswersNoNotConfigured s (s.answer (errorResponse e)) :=
  ⟨errorResponse e, rfl, fun hcode => h (UnitError.code_injective hcode)⟩

/-- A success answered on a state with the same log. -/
theorem answersNoNotConfigured_ok {s s' : State} (hlog : s'.responses = s.responses) (flag : Bool) (data : List Beat) :
    AnswersNoNotConfigured s (s'.answer (okResponse flag data)) :=
  ⟨okResponse flag data, congrArg (· ++ [okResponse flag data]) hlog, (UnitError.code_ne_zero .notConfigured).symm⟩

/-- Without a filter the five commands that need one answer `NotConfigured`, whatever their operands. -/
theorem exec_of_unconfigured {s : State} (hc : s.cfg = false) {n g o : Nat} {id : Identifier} {i : Instr}
    (hi : i ∈ [Instr.add n id, .has n id, .derive n id, .rdlen g, .rdbyte g o]) :
    exec i s = .next (s.answer (errorResponse .notConfigured)) := by
  have hid : identifierOperand n id s = .error .notConfigured := identifierOperand_eq_error.2 (.inl ⟨hc, rfl⟩)
  simp only [List.mem_cons, List.not_mem_nil, or_false] at hi
  rcases hi with rfl | rfl | rfl | rfl | rfl
  · exact exec_add_of_error hid
  · exact exec_has_of_error hid
  · exact exec_derive_of_error hid
  · exact exec_rdlen_of_error (segmentOperand_eq_error.2 (.inl ⟨hc, rfl⟩))
  · exact exec_rdbyte_of_error (cellOperand_eq_error.2 (.inl ⟨hc, rfl⟩))

/-- Settles O57: the operand checks of the five commands begin with the filter check, and those of the other three do
not look at the filter. -/
theorem notConfiguredComesFirst : Obligations.NotConfiguredComesFirst := by
  refine ⟨fun s hc n g o id i hi => exec_of_unconfigured hc hi, fun s t i hi h => ?_⟩
  rcases hi with ⟨var, rfl | rfl⟩ | ⟨n, rfl⟩
  · rcases execInit_cases h with ⟨e, he, rfl⟩ | ⟨-, -, rfl⟩
    · exact answersNoNotConfigured_error (variantOperand_error_ne_notConfigured he)
    · exact answersNoNotConfigured_ok (constructFilter_responses ..) _ _
  · rcases execDesc_cases h with ⟨e, he, rfl⟩ | ⟨-, -, rfl⟩
    · exact answersNoNotConfigured_error (variantOperand_error_ne_notConfigured he)
    · exact answersNoNotConfigured_ok rfl _ _
  · rcases execRdcsr_cases h with ⟨e, he, rfl⟩ | ⟨c, -, rfl⟩
    · exact answersNoNotConfigured_error (csrOperand_error_ne_notConfigured he)
    · exact answersNoNotConfigured_ok rfl _ _

end Sys2Proof.Machine

namespace Sys2Proof.Machine

/-! ### The step when nothing is presented, and when a reset is (70_reset_and_hazards.md R240, R256) -/

theorem step_of_inputs_nil {s : State} (hin : s.inputs = []) : step s = .next s := by
  simp only [step, hin]

theorem step_of_inputs_rst {s : State} {rest : List HostInput} (hin : s.inputs = .rst :: rest) :
    step s = .next (resetUnit (s.withInputs rest)) := by
  simp only [step, hin, runInput]

/-- Settles O10: the step takes no input. -/
theorem stepWithoutInputChangesNothing : Obligations.StepWithoutInputChangesNothing :=
  fun _ hin => step_of_inputs_nil hin

/-- Settles O11: the step is the reset of the unit, which leaves no filter, and without a filter the CSRs read as after
reset. -/
theorem resetFreesTheFilter : Obligations.ResetFreesTheFilter :=
  fun s rest => ⟨step_of_inputs_rst (s := { s with inputs := .rst :: rest }) rfl,
    csrsReadAsReset_of_unconfigured rfl⟩

/-! ### Completion (70_reset_and_hazards.md R254) -/

/-- Settles O16: every command completes under the invariants, and a step takes no input or completes the one it
takes. -/
theorem everyCommandCompletes : Obligations.EveryCommandCompletes := by
  refine fun s hs => ⟨exists_exec_eq_next hs, ?_⟩
  cases hin : s.inputs with
  | nil => exact ⟨s, step_of_inputs_nil hin⟩
  | cons input rest =>
    obtain ⟨t, hstep, -⟩ := exists_step_eq_next hs hin
    exact ⟨t, hstep⟩

end Sys2Proof.Machine

namespace Sys2Proof.Machine

/-! ### The encoding examples (30_encoding.md section 7) -/

/-- A word is legal exactly as the encoding of a well-formed command: R81 read through the encoder. -/
theorem decode_eq_legal_iff_encode {cw : CommandWord} {i : Instr} :
    decode cw = .legal i ↔ encode i = cw ∧ i.wf = true := by
  refine ⟨legalWordIsTheEncodingOfItsCommand cw i, ?_⟩
  rintro ⟨rfl, hwf⟩
  exact decodeOfEncodeIsTheCommand i hwf

/-- Settles O6: each of the nine words is the encoding of the well-formed command printed beside it. -/
theorem encodingExamplesDecode : Obligations.EncodingExamplesDecode := by
  refine ⟨?_, ?_, ?_, ?_, ?_, ?_, ?_, ?_, ?_⟩ <;>
    exact decode_eq_legal_iff_encode.2 ⟨by decide, by decide⟩

end Sys2Proof.Machine
